-- ==== Sys2Proof/Word.lean ====
section
/-! DEFINITION. The word types of the wire format and of the engine registers (R9, R23, R24). -/

namespace Sys2Proof

/-- A byte, the spec's `u8` (R9: bit 7 is the most significant). -/
abbrev Byte := BitVec 8

/-- The spec's `u16`: the length registers (R23, R24). -/
abbrev U16 := BitVec 16

/-- The spec's `u17`: the index registers and `enc_total` (R23, R24). -/
abbrev U17 := BitVec 17

/-- The spec's `u32`: one half of an extended address (R21). -/
abbrev U32 := BitVec 32

end Sys2Proof
end

