-- ==== Sys2Proof/Config.lean ====
section
/-! DEFINITION. The parameters of the hardware (R7, R8), fixed before reset and written by no step (R29). -/

namespace Sys2Proof

/-- The parameters of R7 that are data. `SinkErr` and `SourceErr` are types: which values they have is
left to `Config.sinkErrCode` and `Config.sourceErrCode` below. -/
structure Config where
  /-- `CAP`, the capacity in bytes of each staging buffer. -/
  cap : Nat
  /-- `TXSTATUS_KNOWN`, a set of bytes held as a list without repeats. -/
  txStatusKnown : List Byte
  /-- `DISCO_KNOWN`, a set of bytes held as a list without repeats. -/
  discoKnown : List Byte
  deriving DecidableEq, Repr

namespace Config

/-- R7, D19: which codes are values of the parameter `SinkErr`. No body: the type may be any
(DESIGN CHOICE, log entry 3). -/
opaque sinkErrCode : Nat → Bool

/-- R7, D19: which codes are values of the parameter `SourceErr`, as `sinkErrCode`. -/
opaque sourceErrCode : Nat → Bool

/-- The legal values of R7: `1 <= CAP <= 65535`; 17 status bytes, 0x00 among them; discovery
status bytes, 0x01 among them. -/
abbrev wf (c : Config) : Prop :=
  (1 ≤ c.cap ∧ c.cap ≤ 65535) ∧
  (c.txStatusKnown.length = 17 ∧ c.txStatusKnown.Nodup ∧ 0x00#8 ∈ c.txStatusKnown) ∧
  (c.discoKnown.Nodup ∧ 0x01#8 ∈ c.discoKnown)

/-- PRESUMED (log entry 2): the default table of R121, with the names given there. Only 0x00 is in
the source, the other rows are the spec author's general knowledge. -/
def txStatusTable : List (Byte × String) :=
  [(0x00, "Success"),
   (0x01, "MAC ACK failure"),
   (0x02, "CCA failure"),
   (0x15, "invalid destination endpoint"),
   (0x21, "network ACK failure"),
   (0x22, "not joined to network"),
   (0x23, "self-addressed"),
   (0x24, "address not found"),
   (0x25, "route not found"),
   (0x26, "broadcast source failed to hear a neighbour relay the message"),
   (0x2B, "invalid binding table index"),
   (0x2C, "resource error (lack of free buffers, timers)"),
   (0x2D, "attempted broadcast with APS transmission"),
   (0x2E, "attempted unicast with APS transmission, but encryption not enabled"),
   (0x32, "resource error (lack of free buffers, timers)"),
   (0x74, "data payload too large"),
   (0x75, "indirect message unrequested")]

/-- PRESUMED (log entry 2): the default table of R122. Only 0x01 is in the source. -/
def discoTable : List (Byte × String) :=
  [(0x00, "no discovery overhead"),
   (0x01, "AddressDiscovery"),
   (0x02, "route discovery"),
   (0x03, "address and route discovery"),
   (0x40, "extended timeout discovery")]

/-- The default parameters of R7: the recommended capacity and the tables of R121 and R122. -/
def default : Config where
  cap := 256
  txStatusKnown := txStatusTable.map (·.1)
  discoKnown := discoTable.map (·.1)

end Config

end Sys2Proof
end

