-- ==== Sys2Proof/Syntax.lean ====
section
/-! DEFINITION. The values carried by commands and outcomes (R21), the instructions (R2, one
constructor for each row of the opcode table), and what arrives at a port to be decoded. -/

namespace Sys2Proof

/-! ### Operand and result values (R21) -/

/-- R110: two bytes, kept as two bytes and never as one 16-bit number (R88). -/
structure ShortAddress where
  high : Byte
  low  : Byte
  deriving DecidableEq, Repr

/-- R112: two 32-bit halves. -/
structure ExtendedAddress where
  high : U32
  low  : U32
  deriving DecidableEq, Repr

/-- R111, R101. -/
def ShortAddress.coordinator : ShortAddress := ⟨0x00, 0x00⟩
/-- R111, R101. -/
def ShortAddress.unknown : ShortAddress := ⟨0xFF, 0xFE⟩
/-- R113, R101. -/
def ExtendedAddress.coordinator : ExtendedAddress := ⟨0x00000000, 0x00000000⟩
/-- R113, R101. -/
def ExtendedAddress.broadcast : ExtendedAddress := ⟨0x00000000, 0x0000FFFF⟩

/-- R114: an 8-bit set, every one of the 256 values legal. -/
abbrev TxOptions := Byte
/-- R116: an 8-bit set, of which only bits 0, 1 and 5 survive parsing. -/
abbrev RxOptions := Byte

/-- R93, R114. -/
def TxOptions.disableRetries : TxOptions := 0x01
/-- R93, R114. -/
def TxOptions.enableEncryption : TxOptions := 0x20
/-- R93, R114. -/
def TxOptions.extendedTimeout : TxOptions := 0x40
/-- R93, R116. -/
def RxOptions.packetAcknowledged : RxOptions := 0x01
/-- R93, R116. -/
def RxOptions.broadcastPacket : RxOptions := 0x02
/-- R93, R116. -/
def RxOptions.packetEncrypted : RxOptions := 0x20

/-- R21: the operand of ENCODE. Every value of every field is legal (R22), and `data` may have any
length. -/
structure TxRequest where
  frameId  : Byte
  destMac  : ExtendedAddress
  destAddr : ShortAddress
  bcRadius : Byte
  options  : TxOptions
  data     : List Byte
  deriving DecidableEq, Repr

/-- R21, D28: the one outbound variant. -/
abbrev Outbound := TxRequest

/-- R21: the parsed fields of a receive packet. -/
structure RxPacket where
  sourceMac  : ExtendedAddress
  sourceAddr : ShortAddress
  options    : RxOptions
  data       : List Byte
  deriving DecidableEq, Repr

/-- R21: the parsed fields of a transmit status; the two status fields are raw bytes (D35). -/
structure TransmitStatus where
  frameId     : Byte
  destAddr    : ShortAddress
  txrCount    : Byte
  status      : Byte
  discoStatus : Byte
  deriving DecidableEq, Repr

/-- R21: what a successful READ delivers. -/
inductive Inbound where
  | rxPacket       (r : RxPacket)
  | transmitStatus (t : TransmitStatus)
  deriving DecidableEq, Repr

/-- R7, D19: the parameter `SinkErr`, a transport failure of the sink, carried verbatim and never
inspected. Its values are the codes of a set that nothing fixes, but that 0 is in it (DESIGN CHOICE,
log entry 3). -/
structure SinkErr where
  code  : Nat
  legal : code = 0 ∨ Config.sinkErrCode code = true
  deriving DecidableEq, Repr

/-- R7, D19: the parameter `SourceErr`, a transport failure of the source, as `SinkErr`. -/
structure SourceErr where
  code  : Nat
  legal : code = 0 ∨ Config.sourceErrCode code = true
  deriving DecidableEq, Repr

/-- R21, R267: the five reasons of `Malformed`. -/
inductive MalformedReason where
  | emptyPayload
  | rxPacketLength
  | txStatusLength
  | txStatusCode    (raw : Byte)
  | discoStatusCode (raw : Byte)
  deriving DecidableEq, Repr

/-- R21, R261: how ENCODE can fail. -/
inductive EncodeError where
  | overflow
  | other (e : SinkErr)
  deriving DecidableEq, Repr

/-- R21, R261: how READ can fail. -/
inductive DecodeError where
  | overflow
  | noStart
  | badChecksum (sum : Byte)
  | unsupported (tag : Byte)
  | malformed   (reason : MalformedReason)
  | other       (e : SourceErr)
  deriving DecidableEq, Repr

/-- R21: how ENCODE ends. -/
inductive EncOutcome where
  | ok
  | failed (e : EncodeError)
  deriving DecidableEq, Repr

/-- R21: how READ ends. -/
inductive DecOutcome where
  | delivered (frame : Inbound)
  | failed    (e : DecodeError)
  deriving DecidableEq, Repr

/-! ### Instructions -/

/-- What follows the tag of an inbound RXPACKET (format P_RXPACKET, R91): all fixed fields, or too
few bytes for them (R163, R164). `options` is the raw byte. -/
inductive RxPacketForm where
  | complete (sourceMac : ExtendedAddress) (sourceAddr : ShortAddress) (options : Byte)
      (data : List Byte)
  | short (rest : List Byte)
  deriving DecidableEq, Repr

/-- What follows the tag of an inbound TXSTATUS (format P_TXSTATUS, R92): the six fixed fields and
the trailing bytes that are ignored (R175), or too few bytes (R166). -/
inductive TxStatusForm where
  | complete (frameId : Byte) (destAddr : ShortAddress) (txrCount status discoStatus : Byte)
      (ignored : List Byte)
  | short (rest : List Byte)
  deriving DecidableEq, Repr

/-- R94, R95: tag 0x10 as the outbound frame of ENCODE, and as an inbound payload that DEC has no
arm for (log entry 15). -/
inductive TxRequestForm where
  | outbound (frame : TxRequest)
  | inbound  (rest : List Byte)
  deriving DecidableEq, Repr

/-- The instruction set of R2: the two host commands and the six named frame types, one
constructor for each row of spec/opcode_table.json. -/
inductive Instr where
  /-- ENCODE (R190). -/
  | encode (frame : Outbound)
  /-- READ (R220). -/
  | read
  /-- TXREQUEST, tag 0x10 (R140). -/
  | txrequest (form : TxRequestForm)
  /-- TXSTATUS, tag 0x8B (R167). -/
  | txstatus (form : TxStatusForm)
  /-- RXPACKET, tag 0x90 (R165). -/
  | rxpacket (form : RxPacketForm)
  /-- ATRESP, tag 0x88 (R170); `rest` is the payload after the tag, whose layout is in no source. -/
  | atresp (rest : List Byte)
  /-- MODEMSTATUS, tag 0x8A (R170). -/
  | modemstatus (rest : List Byte)
  /-- REMOTEATRESP, tag 0x97 (R170). -/
  | remoteatresp (rest : List Byte)
  deriving DecidableEq, Repr

/-- What the hardware can be given to decode. The two commands have no opcode bits and are told
apart by the port they arrive at (D1); a frame type is told apart by `payload[0]` (R94), and its
direction is part of the opcode map (R95). -/
inductive Arrival where
  | encodeCommand (frame : Outbound)
  | readCommand
  | outbound (payload : List Byte)
  | inbound  (payload : List Byte)
  deriving DecidableEq, Repr

end Sys2Proof
end

