-- ==== Sys2Proof/WellFormed.lean ====
section
/-! DEFINITION. Which instruction terms stand for something the hardware can meet. -/

namespace Sys2Proof

/-- A payload length fits the 16-bit length field (R82). -/
def payloadFits (n : Nat) : Bool := decide (n ≤ 65535)

/-- R90: an outbound TXREQUEST can be laid out when its `14 + D` payload bytes fit the length field
(R82). An inbound one is a tag and any bytes. -/
def TxRequestForm.wf : TxRequestForm → Bool
  | .outbound frame => payloadFits (14 + frame.data.length)
  | .inbound rest   => payloadFits (1 + rest.length)

/-- R91, R163, R164: the short form has fewer than 12 payload bytes. -/
def RxPacketForm.wf : RxPacketForm → Bool
  | .complete _ _ _ data => payloadFits (12 + data.length)
  | .short rest          => decide (1 + rest.length < 12)

/-- R92, R166: the short form has fewer than 7 payload bytes. -/
def TxStatusForm.wf : TxStatusForm → Bool
  | .complete _ _ _ _ _ ignored => payloadFits (7 + ignored.length)
  | .short rest                 => decide (1 + rest.length < 7)

/-- Well-formed instructions. The operand of ENCODE is not encoded in bits and every value of it is
legal (R22, D7). -/
def Instr.wf : Instr → Bool
  | .encode _          => true
  | .read              => true
  | .txrequest form    => form.wf
  | .txstatus form     => form.wf
  | .rxpacket form     => form.wf
  | .atresp rest       => payloadFits (1 + rest.length)
  | .modemstatus rest  => payloadFits (1 + rest.length)
  | .remoteatresp rest => payloadFits (1 + rest.length)

end Sys2Proof
end

