-- ==== Sys2Proof/Decode.lean ====
section
/-! DEFINITION. Byte order, the serialisation of the value model, and the decoder and encoder of the
instructions (30_encoding.md, 40_value_model.md, 41_outbound_txrequest.md). -/

namespace Sys2Proof

/-! ### Byte order (R9, R50, R124 point 4) -/

/-- R9, R82: `be16(h, l) = h * 256 + l`. -/
def be16 (h l : Byte) : U16 := h ++ l

/-- R9, R87: `be32`, most significant byte first. -/
def be32 (b0 b1 b2 b3 : Byte) : U32 := b0 ++ b1 ++ b2 ++ b3

/-- R9: bits 15:8. -/
def hi8 (v : U16) : Byte := (v >>> 8).setWidth 8

/-- R9: bits 7:0. -/
def lo8 (v : U16) : Byte := v.setWidth 8

/-! ### Checksum arithmetic (R84, R124 points 1 and 2) -/

/-- R9, R124: the sum of the bytes modulo 256, folded from 0. -/
def sum8 (bs : List Byte) : Byte := bs.foldl (· + ·) 0

/-- R84: `CHECKSUM = 0xFF - sum8(payload)`. -/
def checksum (payload : List Byte) : Byte := 0xFF - sum8 payload

/-- R81: the start delimiter. -/
def startByte : Byte := 0x7E

/-! ### Addresses and option sets (R110 to R117) -/

/-- R110. -/
def ser16 (a : ShortAddress) : List Byte := [a.high, a.low]

/-- R110. -/
def par16 (b0 b1 : Byte) : ShortAddress := ⟨b0, b1⟩

/-- R51, R113: byte `i` of the big-endian 8-byte form. The index type is `Fin 8` (U16). -/
def byteAt (a : ExtendedAddress) (i : Fin 8) : Byte :=
  if i.val ≤ 3 then (a.high >>> (8 * (3 - i.val))).setWidth 8
  else (a.low >>> (8 * (7 - i.val))).setWidth 8

/-- R113: the eight bytes in order. -/
def ser64 (a : ExtendedAddress) : List Byte :=
  [byteAt a 0, byteAt a 1, byteAt a 2, byteAt a 3, byteAt a 4, byteAt a 5, byteAt a 6, byteAt a 7]

/-- R87, R112. -/
def par64 (m0 m1 m2 m3 m4 m5 m6 m7 : Byte) : ExtendedAddress :=
  ⟨be32 m0 m1 m2 m3, be32 m4 m5 m6 m7⟩

/-- R115: the wire byte is the value itself, all 8 bits. -/
def serTxOpt (o : TxOptions) : Byte := o

/-- R116: unknown bits are dropped. -/
def parRxOpt (b : Byte) : RxOptions := b &&& 0x23

/-! ### Frame types (R94) -/

/-- Tag of TXREQUEST. -/
def tagTxRequest : Byte := 0x10
/-- Tag of TXSTATUS. -/
def tagTxStatus : Byte := 0x8B
/-- Tag of RXPACKET. -/
def tagRxPacket : Byte := 0x90
/-- Tag of ATRESP. -/
def tagAtResp : Byte := 0x88
/-- Tag of MODEMSTATUS. -/
def tagModemStatus : Byte := 0x8A
/-- Tag of REMOTEATRESP. -/
def tagRemoteAtResp : Byte := 0x97

/-! ### Outbound frames (41_outbound_txrequest.md) -/

/-- R141: computed from the length of `data` alone, exactly. -/
def encodedLength (f : TxRequest) : Nat := 14 + f.data.length

/-- R142, layout R90. -/
def payloadOf (f : TxRequest) : List Byte :=
  [tagTxRequest, f.frameId] ++ ser64 f.destMac ++ ser16 f.destAddr ++
    [f.bcRadius, serTxOpt f.options] ++ f.data

/-- R80: the wire frame around a payload. -/
def frameAround (payload : List Byte) : List Byte :=
  let len : U16 := BitVec.ofNat 16 payload.length
  [startByte, hi8 len, lo8 len] ++ payload ++ [checksum payload]

/-- R194: the wire image of an outbound frame. -/
def wire (f : TxRequest) : List Byte := frameAround (payloadOf f)

/-- R85: what a well-formed frame is. -/
def isFrame (bs : List Byte) : Bool :=
  match bs with
  | start :: lenHi :: lenLo :: body =>
    decide (start = startByte) && decide (body.length = (be16 lenHi lenLo).toNat + 1) &&
      decide (sum8 body = 0xFF)
  | _ => false

/-! ### The decoder -/

/-- Why an inbound payload is none of the named instructions. -/
inductive InboundReject where
  /-- R161: there is no `payload[0]`. -/
  | emptyPayload
  /-- R171: a tag without a row in the opcode map. -/
  | unknownTag (tag : Byte)
  deriving DecidableEq, Repr

/-- Why an outbound payload is no TXREQUEST. -/
inductive OutboundReject where
  /-- Fewer than the 14 fixed bytes of R90. -/
  | shortTxRequest
  /-- R95: another tag, which ENCODE cannot produce. -/
  | notOutbound (tag : Byte)
  deriving DecidableEq, Repr

/-- Why the decoder refuses. -/
inductive Reject where
  | inbound  (r : InboundReject)
  | outbound (r : OutboundReject)
  deriving DecidableEq, Repr

/-- The bytes after the tag of an inbound RXPACKET (R91, R165); fewer than 11 give the short form. -/
def decodeRxPacket (rest : List Byte) : RxPacketForm :=
  match rest with
  | m0 :: m1 :: m2 :: m3 :: m4 :: m5 :: m6 :: m7 :: addrHi :: addrLo :: options :: data =>
    .complete (par64 m0 m1 m2 m3 m4 m5 m6 m7) (par16 addrHi addrLo) options data
  | _ => .short rest

/-- The bytes after the tag of an inbound TXSTATUS (R92, R167); fewer than 6 give the short form. -/
def decodeTxStatus (rest : List Byte) : TxStatusForm :=
  match rest with
  | frameId :: addrHi :: addrLo :: txrCount :: status :: disco :: ignored =>
    .complete frameId (par16 addrHi addrLo) txrCount status disco ignored
  | _ => .short rest

/-- An inbound payload: dispatch on the whole of `payload[0]` and on nothing else (R94, R162). -/
def decodeInbound (payload : List Byte) : Except InboundReject Instr :=
  match payload with
  | [] => .error .emptyPayload
  | tag :: rest =>
    if tag = tagRxPacket then .ok (.rxpacket (decodeRxPacket rest))
    else if tag = tagTxStatus then .ok (.txstatus (decodeTxStatus rest))
    else if tag = tagTxRequest then .ok (.txrequest (.inbound rest))
    else if tag = tagAtResp then .ok (.atresp rest)
    else if tag = tagModemStatus then .ok (.modemstatus rest)
    else if tag = tagRemoteAtResp then .ok (.remoteatresp rest)
    else .error (.unknownTag tag)

/-- An outbound payload (R90): the only outbound tag is 0x10 (R95). -/
def decodeOutbound (payload : List Byte) : Except OutboundReject Instr :=
  match payload with
  | tag :: frameId :: m0 :: m1 :: m2 :: m3 :: m4 :: m5 :: m6 :: m7 :: addrHi :: addrLo ::
      radius :: options :: data =>
    if tag = tagTxRequest then
      .ok (.txrequest (.outbound
        { frameId := frameId, destMac := par64 m0 m1 m2 m3 m4 m5 m6 m7,
          destAddr := par16 addrHi addrLo, bcRadius := radius, options := options, data := data }))
    else .error (.notOutbound tag)
  | tag :: _ => if tag = tagTxRequest then .error .shortTxRequest else .error (.notOutbound tag)
  | [] => .error .shortTxRequest

/-- The decoder, total on everything that can arrive. The two commands have no bits to decode: the
port selects them (R190, R220, D1). -/
def decode (a : Arrival) : Except Reject Instr :=
  match a with
  | .encodeCommand frame => .ok (.encode frame)
  | .readCommand => .ok .read
  | .outbound payload =>
    match decodeOutbound payload with
    | .ok i => .ok i
    | .error r => .error (.outbound r)
  | .inbound payload =>
    match decodeInbound payload with
    | .ok i => .ok i
    | .error r => .error (.inbound r)

/-! ### The encoder -/

/-- The bytes after the tag of an RXPACKET (R91). -/
def encodeRxPacket : RxPacketForm → List Byte
  | .complete mac addr options data => ser64 mac ++ ser16 addr ++ [options] ++ data
  | .short rest => rest

/-- The bytes after the tag of a TXSTATUS (R92). -/
def encodeTxStatus : TxStatusForm → List Byte
  | .complete frameId addr txrCount status disco ignored =>
    [frameId] ++ ser16 addr ++ [txrCount, status, disco] ++ ignored
  | .short rest => rest

/-- The port and the bytes of an instruction (R90 to R94, D1). -/
def encode (i : Instr) : Arrival :=
  match i with
  | .encode frame               => .encodeCommand frame
  | .read                       => .readCommand
  | .txrequest (.outbound f)    => .outbound (payloadOf f)
  | .txrequest (.inbound rest)  => .inbound (tagTxRequest :: rest)
  | .txstatus form              => .inbound (tagTxStatus :: encodeTxStatus form)
  | .rxpacket form              => .inbound (tagRxPacket :: encodeRxPacket form)
  | .atresp rest                => .inbound (tagAtResp :: rest)
  | .modemstatus rest           => .inbound (tagModemStatus :: rest)
  | .remoteatresp rest          => .inbound (tagRemoteAtResp :: rest)

/-! ### The opcode table's words -/

/-- The number of payload bytes of a frame type without its `data`: the fixed parts of R90, R91 and
R92; one byte, the tag, where the layout is in no source. -/
def fixedPart (tag : Byte) : Nat :=
  if tag = tagTxRequest then 14
  else if tag = tagRxPacket then 12
  else if tag = tagTxStatus then 7
  else 1

/-- Byte `i` of a table word: bit 0 is the least significant bit of the first byte. -/
def tableByte (w i : Nat) : Byte := BitVec.ofNat 8 (w / 2 ^ (8 * i))

/-- The payload bytes of a table word: its own bytes, then zero bytes up to the fixed part of its
frame type. -/
def tablePayload (nbits w : Nat) : List Byte :=
  let given := (List.range (nbits / 8)).map (tableByte w)
  given ++ List.replicate (fixedPart (tableByte w 0) - given.length) 0x00

/-- Where a table word arrives: tag 0x10 is outbound and every other tag inbound (R94, R95). A word
of no bits at all is the READ command, the one instruction with neither opcode bits nor an operand
(DESIGN CHOICE, log entry 14). -/
def tableArrival (nbits w : Nat) : Arrival :=
  if nbits = 0 then .readCommand
  else if tableByte w 0 = tagTxRequest then .outbound (tablePayload nbits w)
  else .inbound (tablePayload nbits w)

/-- The instruction the decoder reads from a word of the opcode table. -/
def decodeTableWord (nbits w : Nat) : Option Instr :=
  match decode (tableArrival nbits w) with
  | .ok i => some i
  | .error _ => none

end Sys2Proof
end

