-- ==== Sys2Proof/Machine/State.lean ====
section
/-! DEFINITION. The state of the two engines (10_state.md), the inputs that are still to come, the
reasons a step can stop, and the state after reset (R36). -/

namespace Sys2Proof.Machine

/-! ### Reasons to stop -/

/-- Faults of the model. No rule of the spec reads or writes such a cell (R10, R57), and no state
that satisfies the invariant of Safety.lean raises either. -/
inductive Fault where
  /-- An index outside a staging buffer (R56, R57), raised by the loads and stores of Ops.lean.
  Safe: the model stops where the spec gives no behaviour (log entry 9). -/
  | noSuchCell
  /-- A read of a cell that nothing has written (R10, R36), raised by the loads of Ops.lean.
  Safe: no proof can lean on a value (log entry 8). -/
  | unwrittenCell
  deriving DecidableEq, Repr

/-- Refusals of the model. -/
inductive Refusal where
  /-- An instruction without a meaning, raised by `exec` alone. Safe. -/
  | notModelled (mnemonic : String)
  /-- ENCODE on an ENC that is not idle (R35, D4, U1), raised by `execEncode` and `execTxrequest`.
  Safe: the spec refuses the command too. A step never raises it, since the command waits
  at its port (log entry 10). -/
  | encoderBusy
  /-- READ on a DEC that is not idle (R35, D4, U1), raised by `execRead`. Safe, as `encoderBusy`. -/
  | decoderBusy
  deriving DecidableEq, Repr

/-! ### Storage -/

/-- A staging buffer (R31): the cells that hold a value, as (index, byte) pairs. A cell that is not
listed holds no value (R36; log entry 8). -/
abbrev Memory := List Host.Cell

/-- The canonical form: indices strictly rising. Every listed entry differs from what an
unlisted cell reads as, since an unlisted cell reads as no value. -/
abbrev Memory.wf (m : Memory) : Prop := m.Pairwise (fun x y => x.1 < y.1)

/-! ### Inputs -/

/-- The sink's answer to a poll `SinkWrite(b)` (R10, R26). -/
inductive SinkAnswer where
  | accepted
  | notReady
  | error (e : SinkErr)
  deriving DecidableEq, Repr

/-- The source's answer to a poll `SourceRead()` (R10, R26). -/
inductive SourceAnswer where
  | ready (b : Byte)
  | notReady
  | error (e : SourceErr)
  deriving DecidableEq, Repr

/-- Who moves in a step: one of the engines (R11, R20), or the reset input (R301; log entry 17). -/
inductive Turn where
  | enc
  | dec
  | reset
  deriving DecidableEq, Repr

/-! ### The engines -/

/-- The sequencer of ENC (R23). -/
inductive EncSeq where
  /-- `E_IDLE` -/
  | idle
  /-- `E_SEND` -/
  | send
  deriving DecidableEq, Repr

/-- The sequencer of DEC (R24). -/
inductive DecSeq where
  /-- `D_IDLE` -/
  | idle
  /-- `D_START` -/
  | start
  /-- `D_LEN_HI` -/
  | lenHi
  /-- `D_LEN_LO` -/
  | lenLo
  /-- `D_BODY` -/
  | body
  deriving DecidableEq, Repr

/-- The encoder engine: its registers and buffer (R23) and its ports. -/
structure Enc where
  /-- `enc_state` -/
  state : EncSeq
  /-- `enc_len` -/
  len : U16
  /-- `enc_total` -/
  total : U17
  /-- `enc_idx` -/
  idx : U17
  /-- `enc_sum` -/
  sum : Byte
  /-- `ENC_BUF`, indices `0 .. CAP+3` -/
  buf : Memory
  /-- ENCODE commands issued and not yet accepted, with their operands, oldest first (R31, R35). -/
  requests : List TxRequest
  /-- The sink's answers to the next polls, next first (R20, R33; log entries 4 and 5). -/
  answers : List SinkAnswer
  /-- Every byte the sink has accepted since power-on, in order (R32 point 2, R55). -/
  accepted : List Byte
  /-- The `out` of ENC's latest step (R26; log entry 11). -/
  out : Option EncOutcome
  deriving DecidableEq, Repr

/-- The decoder engine: its registers and buffer (R24) and its ports. -/
structure Dec where
  /-- `dec_state` -/
  state : DecSeq
  /-- `dec_len` -/
  len : U16
  /-- `dec_idx` -/
  idx : U17
  /-- `dec_sum` -/
  sum : Byte
  /-- `DEC_BUF`, indices `0 .. CAP-1` -/
  buf : Memory
  /-- `dec_frame` -/
  frame : Option Inbound
  /-- READ commands issued and not yet accepted (R35). -/
  requests : Nat
  /-- The source's answers to the next polls, next first (R20, R33; log entries 4 and 5). -/
  answers : List SourceAnswer
  /-- How many bytes have been consumed from the source stream since power-on (R32 point 1, R55). -/
  consumed : Nat
  /-- The `out` of DEC's latest step (R26; log entry 11). -/
  out : Option DecOutcome
  deriving DecidableEq, Repr

/-- The whole machine. The engines share nothing (R20, R31). -/
structure State where
  /-- The parameters (R7), which no step writes (R29; log entry 1). -/
  config : Config
  enc : Enc
  dec : Dec
  /-- Who moves next, first entry first (R35, R60; log entry 6). -/
  schedule : List Turn
  deriving DecidableEq, Repr

/-! ### Reset -/

/-- ENC after reset (R36). The registers R36 leaves unspecified hold 0: DESIGN CHOICE
(log entry 7). -/
def Enc.reset : Enc where
  state := .idle
  len := 0
  total := 0
  idx := 0
  sum := 0
  buf := []
  requests := []
  answers := []
  accepted := []
  out := none

/-- DEC after reset (R36). The registers R36 leaves unspecified hold 0: DESIGN CHOICE
(log entry 7). -/
def Dec.reset : Dec where
  state := .idle
  len := 0
  idx := 0
  sum := 0
  buf := []
  frame := none
  requests := 0
  answers := []
  consumed := 0
  out := none

/-- The state after reset of a machine built with the parameters `c`. -/
def State.resetWith (c : Config) : State where
  config := c
  enc := .reset
  dec := .reset
  schedule := []

/-- The machine right after reset (R36, R300), with the default parameters of R7. -/
def State.reset : State := .resetWith .default

end Sys2Proof.Machine
end

