-- ==== Sys2Proof/Machine/Ops.lean ====
section
/-! DEFINITION. The named operations over the staging buffers and the engines' registers, the one
operation that takes a failure (R270), and the reset input (R300, R301). -/

namespace Sys2Proof.Machine

/-! ### Staging buffers (R31, R53, R54) -/

/-- The value of a cell, if it holds one. -/
def Memory.read : Memory → Nat → Option Byte
  | [], _ => none
  | (k, v) :: m, a => if k = a then some v else Memory.read m a

/-- Give a cell a value, keeping the indices strictly rising. -/
def Memory.write : Memory → Nat → Byte → Memory
  | [], a, b => [(a, b)]
  | (k, v) :: m, a, b =>
    if a < k then (a, b) :: (k, v) :: m
    else if a = k then (a, b) :: m
    else (k, v) :: Memory.write m a b

/-- R23: `ENC_BUF` has `CAP + 4` cells. -/
def encBufSize (c : Config) : Nat := c.cap + 4

/-- R24: `DEC_BUF` has `CAP` cells. -/
def decBufSize (c : Config) : Nat := c.cap

/-- Read one byte of a buffer of `size` cells (R10 `MemRead`). -/
def load (size : Nat) (m : Memory) (a : Nat) : Except Fault Byte :=
  if a < size then
    match m.read a with
    | some b => .ok b
    | none => .error .unwrittenCell
  else .error .noSuchCell

/-- Write one byte of a buffer of `size` cells (R10 `MemWrite`). -/
def store (size : Nat) (m : Memory) (a : Nat) (b : Byte) : Except Fault Memory :=
  if a < size then .ok (m.write a b) else .error .noSuchCell

/-- Read `n` bytes from index `a` on, in index order. -/
def loadRange (size : Nat) (m : Memory) (a : Nat) : Nat → Except Fault (List Byte)
  | 0 => .ok []
  | n + 1 =>
    match load size m a with
    | .error r => .error r
    | .ok b =>
      match loadRange size m (a + 1) n with
      | .error r => .error r
      | .ok bs => .ok (b :: bs)

/-- Write bytes from index `a` on, in index order. -/
def storeAll (size : Nat) (m : Memory) (a : Nat) : List Byte → Except Fault Memory
  | [] => .ok m
  | b :: bs =>
    match store size m a b with
    | .error r => .error r
    | .ok m' => storeAll size m' (a + 1) bs

/-! ### Ends of commands -/

/-- Which engine fails, and how. -/
inductive Failure where
  | enc (e : EncodeError)
  | dec (e : DecodeError)
  deriving DecidableEq, Repr

/-- `raise` (R270), the hardware's one way to take a failure: the engine's sequencer becomes idle,
the outcome becomes `Failed`, and nothing else is written. There is nothing to return from
(R272): the next command starts from the accepting step. -/
def raise (f : Failure) (s : State) : State :=
  match f with
  | .enc e => { s with enc := { s.enc with state := .idle, out := some (.failed e) } }
  | .dec e => { s with dec := { s.dec with state := .idle, out := some (.failed e) } }

/-- `finish Ok` (R10, R197). -/
def finishEncode (s : State) : State :=
  { s with enc := { s.enc with state := .idle, out := some .ok } }

/-- R236: deliver one parsed value and finish. -/
def deliver (frame : Inbound) (s : State) : State :=
  { s with dec := { s.dec with
      frame := some frame, state := .idle, out := some (.delivered frame) } }

/-! ### Ports -/

/-- ENC's next answer; when none is recorded the sink is not ready (log entry 5). -/
def sinkAnswer (s : State) : SinkAnswer := s.enc.answers.headD .notReady

/-- DEC's next answer; when none is recorded the source is not ready (log entry 5). -/
def sourceAnswer (s : State) : SourceAnswer := s.dec.answers.headD .notReady

/-- The state in which a poll of the sink has been answered, with `out` still None (R26). -/
def sinkPolled (s : State) : State :=
  { s with enc := { s.enc with answers := s.enc.answers.tail, out := none } }

/-- The state in which a poll of the source has been answered, with `out` still None (R26). -/
def sourcePolled (s : State) : State :=
  { s with dec := { s.dec with answers := s.dec.answers.tail, out := none } }

/-- The sink has accepted a byte: it is appended to the outgoing stream for good (R55). -/
def sinkTook (b : Byte) (s : State) : State :=
  { s with enc := { s.enc with accepted := s.enc.accepted ++ [b] } }

/-- The source has given a byte: it is removed from the stream for good (R55). -/
def sourceGave (s : State) : State :=
  { s with dec := { s.dec with consumed := s.dec.consumed + 1 } }

/-! ### Register updates of the sequencers -/

/-- R193 and R194: the registers and the buffer of an accepted frame. -/
def startSending (f : TxRequest) (buf : Memory) (s : State) : State :=
  { s with enc := { s.enc with
      len := BitVec.ofNat 16 (encodedLength f)
      total := BitVec.ofNat 17 (encodedLength f + 4)
      idx := 0
      sum := sum8 (payloadOf f)
      buf := buf
      state := .send
      out := none } }

/-- R197: one more byte has been accepted. -/
def advanceEnc (s : State) : State := { s with enc := { s.enc with idx := s.enc.idx + 1 } }

/-- R221: the accepting step of READ. -/
def startReading (s : State) : State :=
  { s with dec := { s.dec with frame := none, state := .start, out := none } }

/-- R25: the sequencer of DEC goes to another state. -/
def gotoDec (d : DecSeq) (s : State) : State := { s with dec := { s.dec with state := d } }

/-- R226, R227: a new value of `dec_len`. -/
def setDecLen (l : U16) (s : State) : State := { s with dec := { s.dec with len := l } }

/-- R229: body initialisation. -/
def startBody (s : State) : State :=
  { s with dec := { s.dec with idx := 0, sum := 0, state := .body } }

/-- R230: one body byte has been stored. -/
def bodyStored (b : Byte) (buf : Memory) (s : State) : State :=
  { s with dec := { s.dec with buf := buf, sum := s.dec.sum + b, idx := s.dec.idx + 1 } }

/-! ### Scheduling -/

/-- ENC has something to do that does not wait for its environment. -/
def encCanMove (s : State) : Bool :=
  match s.enc.state with
  | .idle => !s.enc.requests.isEmpty
  | .send => !s.enc.answers.isEmpty

/-- Who moves. DESIGN CHOICE (log entry 6): with no entry left in the schedule ENC moves as long as
it has something to do, and DEC otherwise; by R60 the order cannot be told from the outcomes. -/
def nextTurn (s : State) : Turn :=
  match s.schedule with
  | t :: _ => t
  | [] => if encCanMove s then .enc else .dec

/-- The schedule entry of the current step is used up. -/
def popTurn (s : State) : State := { s with schedule := s.schedule.tail }

/-- The oldest ENCODE request leaves its port. -/
def popEncode (s : State) : State :=
  { s with enc := { s.enc with requests := s.enc.requests.tail } }

/-- One READ request leaves its port. -/
def popRead (s : State) : State :=
  { s with dec := { s.dec with requests := s.dec.requests - 1 } }

/-! ### The reset input -/

/-- R300, R301: reset in a running machine. Both engines, their commands and their outcomes go to
their reset values; what the parameters, the transport and the streams hold stays (log entry 17). -/
def applyReset (s : State) : State where
  config := s.config
  enc := { Enc.reset with answers := s.enc.answers, accepted := s.enc.accepted }
  dec := { Dec.reset with answers := s.dec.answers, consumed := s.dec.consumed }
  schedule := s.schedule

end Sys2Proof.Machine
end

