-- ==== Sys2Proof/Machine/Flags.lean ====
section
/-! DEFINITION. The conditions the engines test. The hardware has no flags and no condition codes
(R28): each condition is computed where it is tested, in exact arithmetic on natural numbers
(R124 point 3, D7). -/

namespace Sys2Proof.Machine

/-- R192: `L > CAP`, with `L` the payload length. -/
def encOverflows (c : Config) (f : TxRequest) : Bool := decide (encodedLength f > c.cap)

/-- R228: `L + 1 > CAP`; `L = 65535` gives 65536. -/
def decOverflows (c : Config) (len : U16) : Bool := decide (len.toNat + 1 > c.cap)

/-- R233: the sum of payload and checksum byte is 0xFF. -/
def checksumValid (sum : Byte) : Bool := decide (sum = 0xFF#8)

/-- R197: every staged byte has been accepted. -/
def allSent (e : Enc) : Bool := decide (e.idx = e.total)

/-- R230: `L + 1` body bytes have been received. -/
def bodyComplete (d : Dec) : Bool := decide (¬ d.idx.toNat < d.len.toNat + 1)

end Sys2Proof.Machine
end

