-- ==== Sys2Proof/Machine/Operands.lean ====
section
/-! DEFINITION. The value model that depends on the parameters (R118 to R122), the parser of the spec
(R160 to R175) as one function, the data window (R65, R173) and the result codes (R261). -/

namespace Sys2Proof.Machine

/-! ### Status codes -/

/-- R119: a recognised byte, or the raw byte as an error. -/
def decTxStatus (c : Config) (b : Byte) : Except Byte Byte :=
  if b ∈ c.txStatusKnown then .ok b else .error b

/-- R120. -/
def decDisco (c : Config) (b : Byte) : Except Byte Byte :=
  if b ∈ c.discoKnown then .ok b else .error b

/-- R118, R121: the name of a status byte in the default table, which the host looks up. -/
def txStatusName (b : Byte) : Option String := Config.txStatusTable.lookup b

/-- R118, R122: the name of a discovery status byte in the default table. -/
def discoName (b : Byte) : Option String := Config.discoTable.lookup b

/-! ### The operands of TXSTATUS -/

/-- R167 to R169: `status` is decoded first, then `disco_status`; the first failure decides. -/
def checkTxStatus (c : Config) (t : TransmitStatus) : Except DecodeError Inbound :=
  match decTxStatus c t.status with
  | .error raw => .error (.malformed (.txStatusCode raw))
  | .ok _ =>
    match decDisco c t.discoStatus with
    | .error raw => .error (.malformed (.discoStatusCode raw))
    | .ok _ => .ok (.transmitStatus t)

/-! ### The parser of the spec

`parse` is 42_inbound_parse.md as it stands, on the payload bytes. The step does not call it: it
decodes the payload to an instruction and executes that. A statement says the two agree. -/

/-- R163 to R165. Bytes are read only under the guard `L >= 12`. -/
def parseRxPacket (p : List Byte) : Except DecodeError Inbound :=
  let b := fun i => p.getD i 0
  if p.length ≤ 11 then .error (.malformed .rxPacketLength)
  else .ok (.rxPacket
    { sourceMac := par64 (b 1) (b 2) (b 3) (b 4) (b 5) (b 6) (b 7) (b 8)
      sourceAddr := ⟨b 9, b 10⟩
      options := parRxOpt (b 11)
      data := p.drop 12 })

/-- R166 to R169, R175. Bytes are read only under the guard `L >= 7`. -/
def parseTxStatus (c : Config) (p : List Byte) : Except DecodeError Inbound :=
  let b := fun i => p.getD i 0
  if p.length < 7 then .error (.malformed .txStatusLength)
  else checkTxStatus c
    { frameId := b 1, destAddr := ⟨b 2, b 3⟩, txrCount := b 4, status := b 5, discoStatus := b 6 }

/-- R160 to R162, R170 to R172. -/
def parse (c : Config) (payload : List Byte) : Except DecodeError Inbound :=
  match payload with
  | [] => .error (.malformed .emptyPayload)
  | tag :: _ =>
    if tag = 0x90#8 then parseRxPacket payload
    else if tag = 0x8B#8 then parseTxStatus c payload
    else .error (.unsupported tag)

/-- How a READ ends on a payload whose checksum is right (R236, R237). -/
def outcomeOf (r : Except DecodeError Inbound) : DecOutcome :=
  match r with
  | .ok frame => .delivered frame
  | .error e => .failed e

/-- R233 to R237: how a READ ends once the body is in: `sum` is the sum of the body bytes, payload
and checksum byte. -/
def readOutcome (c : Config) (payload : List Byte) (sum : Byte) : DecOutcome :=
  if sum = 0xFF#8 then outcomeOf (parse c payload) else .failed (.badChecksum sum)

/-! ### The READ of the spec

`readOf` is what 44_decoder.md says of one whole READ, on the transport's answers. The step does not
call it: it polls. A statement says the two agree. -/

/-- How a READ ends: the outcome, how many bytes it has consumed (R240), and the answers it has left
for the next command. -/
structure ReadEnd where
  outcome  : DecOutcome
  consumed : Nat
  rest     : List SourceAnswer
  deriving DecidableEq, Repr

/-- R222 to R224: poll until a byte comes, and go on with it, or end with the transport's error.
With only NotReady answers the READ has not ended (R242). -/
def awaitByte (goOn : Byte → List SourceAnswer → Option ReadEnd) :
    List SourceAnswer → Option ReadEnd
  | [] => none
  | .notReady :: answers => awaitByte goOn answers
  | .error e :: answers => some ⟨.failed (.other e), 0, answers⟩
  | .ready b :: answers =>
    match goOn b answers with
    | none => none
    | some r => some { r with consumed := r.consumed + 1 }

/-- R230, R231: `toGo` payload bytes still to come after the bytes `got`, then the checksum byte. -/
def readBody (c : Config) (toGo : Nat) (got : List Byte) : List SourceAnswer → Option ReadEnd :=
  match toGo with
  | 0 => awaitByte fun b answers => some ⟨readOutcome c got (sum8 (got ++ [b])), 0, answers⟩
  | n + 1 => awaitByte fun b answers => readBody c n (got ++ [b]) answers

/-- R226 to R229: the length bytes, the capacity test, the body. -/
def readLength (c : Config) : List SourceAnswer → Option ReadEnd :=
  awaitByte fun hi answers =>
    awaitByte (fun lo answers =>
      if hi.toNat * 256 + lo.toNat + 1 > c.cap then some ⟨.failed .overflow, 0, answers⟩
      else readBody c (hi.toNat * 256 + lo.toNat) [] answers) answers

/-- R225: the start delimiter, and the rest of the frame. -/
def readOf (c : Config) : List SourceAnswer → Option ReadEnd :=
  awaitByte fun b answers =>
    if b = 0x7E#8 then readLength c answers else some ⟨.failed .noStart, 0, answers⟩

/-! ### The host's side -/

/-- R65, R173: the host reads byte `i` of the `data` window `DEC_BUF[12 .. L)` of the delivered
receive packet. It can read nothing else. -/
def State.hostReadData (s : State) (i : Nat) : Option Byte :=
  match s.dec.frame with
  | some (.rxPacket r) => if i < r.data.length then s.dec.buf.read (12 + i) else none
  | _ => none

/-- R196: the byte that ENC offers to the sink in its next poll, if it is sending. -/
def State.sinkOffer (s : State) : Option Byte :=
  match s.enc.state with
  | .send => s.enc.buf.read s.enc.idx.toNat
  | .idle => none

/-- R261, D20: the numeric code of an outcome of ENCODE. -/
def encCode : EncOutcome → Nat
  | .ok => 0
  | .failed .overflow => 1
  | .failed (.other _) => 6

/-- R261, D20: the numeric code of an outcome of READ. -/
def decCode : DecOutcome → Nat
  | .delivered _ => 0
  | .failed .overflow => 1
  | .failed .noStart => 2
  | .failed (.badChecksum _) => 3
  | .failed (.unsupported _) => 4
  | .failed (.malformed _) => 5
  | .failed (.other _) => 6

end Sys2Proof.Machine
end

