-- ==== Sys2Proof/Machine/Inbound.lean ====
section
/-! DEFINITION. The meanings of READ and of the inbound frame types (42_inbound_parse.md,
44_decoder.md). A frame type runs in the step that completes its frame, after the checksum has been
found right (R231, R235); what it does is deliver one value (R236) or fail (R237). -/

namespace Sys2Proof.Machine

/-- READ (R220): the accepting step `DecCmd` (R221), refused unless DEC is idle (R35). -/
def execRead (s : State) : Host.Outcome State Fault Refusal :=
  match s.dec.state with
  | .idle => .next (startReading s)
  | .start => .refused .decoderBusy
  | .lenHi => .refused .decoderBusy
  | .lenLo => .refused .decoderBusy
  | .body => .refused .decoderBusy

/-- RXPACKET (R163 to R165, R174): the option bits without a name are dropped (R116). -/
def execRxpacket (form : RxPacketForm) (s : State) : Host.Outcome State Fault Refusal :=
  match form with
  | .complete mac addr options data =>
    .next (deliver (.rxPacket
      { sourceMac := mac, sourceAddr := addr, options := parRxOpt options, data := data }) s)
  | .short _ => .next (raise (.dec (.malformed .rxPacketLength)) s)

/-- TXSTATUS (R166 to R169, R175). -/
def execTxstatus (form : TxStatusForm) (s : State) : Host.Outcome State Fault Refusal :=
  match form with
  | .complete frameId addr txrCount status disco _ =>
    match checkTxStatus s.config
      { frameId := frameId, destAddr := addr, txrCount := txrCount, status := status,
        discoStatus := disco } with
    | .ok frame => .next (deliver frame s)
    | .error e => .next (raise (.dec e) s)
  | .short _ => .next (raise (.dec (.malformed .txStatusLength)) s)

/-- ATRESP (R170): unsupported, whatever the payload holds. -/
def execAtresp (_rest : List Byte) (s : State) : Host.Outcome State Fault Refusal :=
  .next (raise (.dec (.unsupported tagAtResp)) s)

/-- MODEMSTATUS (R170). -/
def execModemstatus (_rest : List Byte) (s : State) : Host.Outcome State Fault Refusal :=
  .next (raise (.dec (.unsupported tagModemStatus)) s)

/-- REMOTEATRESP (R170). -/
def execRemoteatresp (_rest : List Byte) (s : State) : Host.Outcome State Fault Refusal :=
  .next (raise (.dec (.unsupported tagRemoteAtResp)) s)

end Sys2Proof.Machine
end

