-- ==== Sys2Proof/Machine/Outbound.lean ====
section
/-! DEFINITION. The meanings of ENCODE and TXREQUEST (41_outbound_txrequest.md, 43_encoder.md). -/

namespace Sys2Proof.Machine

/-- The accepting step `EncCmd(frame, out)` (R191): refused unless ENC is idle (R35); the length test
(R192); the registers (R193) and the staged wire image (R194). It polls nothing. -/
def acceptOutbound (f : TxRequest) (s : State) : Host.Outcome State Fault Refusal :=
  match s.enc.state with
  | .send => .refused .encoderBusy
  | .idle =>
    if encOverflows s.config f then .next (raise (.enc .overflow) s)
    else
      match storeAll (encBufSize s.config) s.enc.buf 0 (wire f) with
      | .error r => .fault r
      | .ok buf => .next (startSending f buf s)

/-- ENCODE (R190): the command's operand is an outbound frame, of which there is one variant (D28). -/
def execEncode (frame : Outbound) (s : State) : Host.Outcome State Fault Refusal :=
  acceptOutbound frame s

/-- TXREQUEST (R140). Outbound, it is the frame that ENCODE accepts: its payload and length are those
of R141 and R142 and it has no failure of its own. Inbound, the decoder has no arm for it
(R95, R171). -/
def execTxrequest (form : TxRequestForm) (s : State) : Host.Outcome State Fault Refusal :=
  match form with
  | .outbound frame => acceptOutbound frame s
  | .inbound _ => .next (raise (.dec (.unsupported tagTxRequest)) s)

end Sys2Proof.Machine
end

