-- ==== Sys2Proof/Machine/Dispatch.lean ====
section
/-! DEFINITION. One arm for each instruction. -/

namespace Sys2Proof.Machine

def exec (i : Instr) (s : State) : Host.Outcome State Fault Refusal :=
  match i with
  | .encode frame => Sys2Proof.Machine.execEncode frame s
  | .read => Sys2Proof.Machine.execRead s
  | .txrequest form => Sys2Proof.Machine.execTxrequest form s
  | .txstatus form => Sys2Proof.Machine.execTxstatus form s
  | .rxpacket form => Sys2Proof.Machine.execRxpacket form s
  | .atresp rest => Sys2Proof.Machine.execAtresp rest s
  | .modemstatus rest => Sys2Proof.Machine.execModemstatus rest s
  | .remoteatresp rest => Sys2Proof.Machine.execRemoteatresp rest s

end Sys2Proof.Machine
end

