-- ==== Sys2Proof/Machine/Polling.lean ====
section
/-! DEFINITION. The steps of the two engines: a command is accepted, or a port is polled once
(R11, R26; 43_encoder.md, 44_decoder.md). -/

namespace Sys2Proof.Machine

/-! ### ENC -/

/-- `EncPoll(b, ans, out)` in `E_SEND` (R196): the byte at `enc_idx` is offered and the sink answers
(R197 accepted, R198 not ready, R199 error). -/
def encPoll (s : State) : Host.Outcome State Fault Refusal :=
  match load (encBufSize s.config) s.enc.buf s.enc.idx.toNat with
  | .error r => .fault r
  | .ok b =>
    let polled := sinkPolled s
    match sinkAnswer s with
    | .notReady => .next polled
    | .error e => .next (raise (.enc (.other e)) polled)
    | .accepted =>
      let sent := advanceEnc (sinkTook b polled)
      if allSent sent.enc then .next (finishEncode sent) else .next sent

/-- One step of ENC. Idle, it accepts the oldest ENCODE request (R191), or waits for one (R36);
sending, it polls the sink. -/
def encStep (s : State) : Host.Outcome State Fault Refusal :=
  match s.enc.state with
  | .send => encPoll s
  | .idle =>
    match s.enc.requests with
    | [] => .next s
    | frame :: _ => exec (.encode frame) (popEncode s)

/-! ### DEC -/

/-- The failure of a payload that is none of the named frame types (R161, R171). -/
def rejectError : InboundReject → DecodeError
  | .emptyPayload => .malformed .emptyPayload
  | .unknownTag tag => .unsupported tag

/-- The instruction in a complete body: the payload `DEC_BUF[0 .. L)` (R235), decoded. -/
def fetchInbound (s : State) : Except Fault (Except InboundReject Instr) :=
  match loadRange (decBufSize s.config) s.dec.buf 0 s.dec.len.toNat with
  | .error r => .error r
  | .ok payload => .ok (decodeInbound payload)

/-- Completion (R231): verify (R233, R234), then run the frame type (R235 to R237). -/
def completeFrame (s : State) : Host.Outcome State Fault Refusal :=
  if checksumValid s.dec.sum then
    match fetchInbound s with
    | .error r => .fault r
    | .ok (.error rejected) => .next (raise (.dec (rejectError rejected)) s)
    | .ok (.ok i) => exec i s
  else .next (raise (.dec (.badChecksum s.dec.sum)) s)

/-- R225: `Ready(b)` in `D_START`. -/
def readyStart (b : Byte) (s : State) : Host.Outcome State Fault Refusal :=
  if b = startByte then .next (gotoDec .lenHi s) else .next (raise (.dec .noStart) s)

/-- R226: `Ready(b)` in `D_LEN_HI`. -/
def readyLenHi (b : Byte) (s : State) : Host.Outcome State Fault Refusal :=
  .next (gotoDec .lenLo (setDecLen (b.setWidth 16 * 256) s))

/-- R227 to R229: `Ready(b)` in `D_LEN_LO`. The overflow test comes before any body byte is
polled for (D9). -/
def readyLenLo (b : Byte) (s : State) : Host.Outcome State Fault Refusal :=
  let known := setDecLen (s.dec.len + b.setWidth 16) s
  if decOverflows s.config known.dec.len then .next (raise (.dec .overflow) known)
  else .next (startBody known)

/-- R230: `Ready(b)` in `D_BODY`. -/
def readyBody (b : Byte) (s : State) : Host.Outcome State Fault Refusal :=
  match store (decBufSize s.config) s.dec.buf s.dec.idx.toNat b with
  | .error r => .fault r
  | .ok buf =>
    let stored := bodyStored b buf s
    if bodyComplete stored.dec then completeFrame stored else .next stored

/-- `DecPoll(ans, out)` (R222 to R224); `onReady` is what the sequencer does with a byte. -/
def decPoll (onReady : Byte → State → Host.Outcome State Fault Refusal) (s : State) :
    Host.Outcome State Fault Refusal :=
  let polled := sourcePolled s
  match sourceAnswer s with
  | .notReady => .next polled
  | .error e => .next (raise (.dec (.other e)) polled)
  | .ready b => onReady b (sourceGave polled)

/-- One step of DEC. Idle, it accepts a READ request (R221), or waits for one (R36); in the other
states it polls the source (R222). -/
def decStep (s : State) : Host.Outcome State Fault Refusal :=
  match s.dec.state with
  | .idle =>
    match s.dec.requests with
    | 0 => .next s
    | _ + 1 => exec .read (popRead s)
  | .start => decPoll readyStart s
  | .lenHi => decPoll readyLenHi s
  | .lenLo => decPoll readyLenLo s
  | .body => decPoll readyBody s

/-! ### Placing an instruction -/

/-- The state in which `a` is what the very next step runs (log entries 14 and 18). A command is put
at its port. An outbound payload is put at the ENCODE port as the operand it stands for. An
inbound payload is put where DEC finds it: all of it received, the right checksum byte the source's
next answer. -/
def placeArrival (a : Arrival) (s : State) : State :=
  let asOperand (f : TxRequest) : State :=
    { s with
      enc := { s.enc with state := .idle, requests := f :: s.enc.requests }
      schedule := .enc :: s.schedule }
  match a with
  | .encodeCommand frame => asOperand frame
  | .readCommand =>
    { s with
      dec := { s.dec with state := .idle, requests := s.dec.requests + 1 }
      schedule := .dec :: s.schedule }
  | .outbound payload =>
    match decodeOutbound payload with
    | .ok (.txrequest (.outbound frame)) => asOperand frame
    | _ => s
  | .inbound payload =>
    { s with
      dec := { s.dec with
        state := .body
        len := BitVec.ofNat 16 payload.length
        idx := BitVec.ofNat 17 payload.length
        sum := sum8 payload
        buf := (payload.zipIdx).foldl (fun m c => m.write c.2 c.1) s.dec.buf
        frame := none
        answers := .ready (checksum payload) :: s.dec.answers }
      schedule := .dec :: s.schedule }

end Sys2Proof.Machine
end

