-- ==== Sys2Proof/Machine/Step.lean ====
section
/-! DEFINITION. One step of the machine: one event of one engine (R11), or the reset input. -/

namespace Sys2Proof.Machine

/-- One step. -/
def step (s : State) : Host.Outcome State Fault Refusal :=
  match nextTurn s with
  | .enc => encStep (popTurn s)
  | .dec => decStep (popTurn s)
  | .reset => .next (applyReset (popTurn s))

/-- `s` with the word `w` of the opcode table placed so that the next step runs it. -/
def State.withFetchWord (s : State) (nbits w : Nat) : State :=
  placeArrival (tableArrival nbits w) s

end Sys2Proof.Machine
end

