-- ==== Sys2Proof/Safety.lean ====
section
/-! DEFINITION. What counts as a safe run, the invariant of the machine (R27, R34), and the words in
which the statements speak of inputs and of whole commands. -/

namespace Sys2Proof.Machine

/-! ### Safe runs -/

/-- A state in which the next step neither faults nor refuses. -/
def State.Safe (s : State) : Prop := ∃ t, step s = .next t

/-- A run of `n` steps that stops nowhere. -/
def State.SafeFor (s : State) (n : Nat) : Prop := ∃ t, Sys2Proof.core.run n s = .next t

/-! ### The invariant -/

/-- The cells from index 0 on hold the bytes `bs`. -/
def Holds (m : Memory) (bs : List Byte) : Prop := ∀ i, i < bs.length → m.read i = bs[i]?

/-- What R34 and R23 say of ENC between steps. -/
structure EncInv (c : Config) (e : Enc) : Prop where
  bufCanonical : e.buf.wf
  bufInRange : ∀ cell ∈ e.buf, cell.1 < encBufSize c
  sending : e.state = .send → ∃ f : TxRequest,
    encodedLength f ≤ c.cap ∧ e.len.toNat = encodedLength f ∧
    e.total.toNat = encodedLength f + 4 ∧ e.idx.toNat < e.total.toNat ∧
    e.sum = sum8 (payloadOf f) ∧ Holds e.buf (wire f) ∧
    (wire f).take e.idx.toNat <:+ e.accepted ∧ e.out = none

/-- What R21 and R34 say of a delivered value: the bytes of its `data` stand in the window of
`DEC_BUF`, its option bits are named ones, its status bytes are recognised. -/
def DeliveredInv (c : Config) (buf : Memory) : Inbound → Prop
  | .rxPacket r =>
    12 + r.data.length + 1 ≤ c.cap ∧ r.options &&& 0xDC = 0 ∧
      ∀ i, i < r.data.length → buf.read (12 + i) = r.data[i]?
  | .transmitStatus t => t.status ∈ c.txStatusKnown ∧ t.discoStatus ∈ c.discoKnown

/-- What R34 and R24 say of DEC between steps. -/
structure DecInv (c : Config) (d : Dec) : Prop where
  bufCanonical : d.buf.wf
  bufInRange : ∀ cell ∈ d.buf, cell.1 < decBufSize c
  highByte : d.state = .lenLo → d.len.toNat % 256 = 0
  inBody : d.state = .body → d.len.toNat + 1 ≤ c.cap ∧ d.idx.toNat ≤ d.len.toNat ∧
    ∃ bs, bs.length = d.idx.toNat ∧ Holds d.buf bs ∧ d.sum = sum8 bs
  active : d.state ≠ .idle → d.out = none
  frameIsOutcome : ∀ f, d.frame = some f ↔ d.out = some (.delivered f)
  delivered : ∀ f, d.frame = some f → DeliveredInv c d.buf f

/-- The invariant of the machine: legal parameters (R7) and both engines' invariants. -/
structure State.Inv (s : State) : Prop where
  config : s.config.wf
  enc : EncInv s.config s.enc
  dec : DecInv s.config s.dec

/-! ### Inputs -/

/-- The state with all its inputs chosen anew: the commands at the ports, the transport's answers,
and the order of the engines. -/
def State.withInputs (s : State) (frames : List TxRequest) (reads : Nat) (sink : List SinkAnswer)
    (source : List SourceAnswer) (order : List Turn) : State :=
  { s with
    enc := { s.enc with requests := frames, answers := sink }
    dec := { s.dec with requests := reads, answers := source }
    schedule := order }

/-- The bytes among the source's answers, in order. -/
def readyBytes : List SourceAnswer → List Byte
  | [] => []
  | .ready b :: as => b :: readyBytes as
  | .notReady :: as => readyBytes as
  | .error _ :: as => readyBytes as

/-! ### Transport errors -/

/-- Another sink error in place of each (D19). -/
def SinkAnswer.mapErr (f : SinkErr → SinkErr) : SinkAnswer → SinkAnswer
  | .accepted => .accepted
  | .notReady => .notReady
  | .error e  => .error (f e)

/-- Another source error in place of each (D19). -/
def SourceAnswer.mapErr (g : SourceErr → SourceErr) : SourceAnswer → SourceAnswer
  | .ready b  => .ready b
  | .notReady => .notReady
  | .error e  => .error (g e)

/-- The outcome with another sink error in it, if it carries one. -/
def EncOutcome.mapErr (f : SinkErr → SinkErr) : EncOutcome → EncOutcome
  | .failed (.other e) => .failed (.other (f e))
  | o => o

/-- The outcome with another source error in it, if it carries one. -/
def DecOutcome.mapErr (g : SourceErr → SourceErr) : DecOutcome → DecOutcome
  | .failed (.other e) => .failed (.other (g e))
  | o => o

/-- The state with other transport errors in place of all that it holds. -/
def State.mapErr (f : SinkErr → SinkErr) (g : SourceErr → SourceErr) (s : State) : State :=
  { s with
    enc := { s.enc with
      answers := s.enc.answers.map (SinkAnswer.mapErr f), out := s.enc.out.map (EncOutcome.mapErr f) }
    dec := { s.dec with
      answers := s.dec.answers.map (SourceAnswer.mapErr g)
      out := s.dec.out.map (DecOutcome.mapErr g) } }

/-! ### Progress (R321) -/

/-- How many bytes of the frame DEC has: START, the length bytes, and the body bytes so far. -/
def decPosition (d : Dec) : Nat :=
  match d.state with
  | .idle  => 0
  | .start => 0
  | .lenHi => 1
  | .lenLo => 2
  | .body  => 3 + d.idx.toNat

/-! ### Instructions by direction -/

/-- The frame types DEC meets (R94, R95). They run in the step that completes a frame. -/
def isInbound : Instr → Bool
  | .encode _               => false
  | .read                   => false
  | .txrequest (.outbound _) => false
  | .txrequest (.inbound _) => true
  | .txstatus _             => true
  | .rxpacket _             => true
  | .atresp _               => true
  | .modemstatus _          => true
  | .remoteatresp _         => true

/-- What `dec_frame` holds after a READ has ended (R236, R237). -/
def deliveredFrame : DecOutcome → Option Inbound
  | .delivered f => some f
  | .failed _ => none

end Sys2Proof.Machine
end

