-- ==== Sys2Proof/Certificates/Slice0/Obligations.lean ====
section
/-! DEFINITION. The statements for the provers. Each docstring says which sentence of the spec the
statement formalises, and names the log entry where it rests on a choice. -/

open Sys2Proof Sys2Proof.Machine

/-! ### Encodings and values -/

/-- Sanity: words written out from the layouts of R90 to R92 (Scenario A, Scenario B, V28) and the
reserved tags of R94 decode to what they stand for. That an inbound 0x10 is a form of TXREQUEST is
the model's reading of the table's row (DEDUCED, log entry 15; R95 gives the decoder no entry for
it), and the empty payload, rejected by name, is decision D11 (log entry 19; R161). -/
def Obligations.SpecWordsDecodeAsWritten : Prop :=
  decode (.inbound [0x8B, 0x01, 0x7D, 0x84, 0x00, 0x00, 0x01]) =
    .ok (.txstatus (.complete 0x01 ⟨0x7D, 0x84⟩ 0x00 0x00 0x01 [])) ∧
  decode (.inbound [0x90, 0x00, 0x13, 0xA2, 0x00, 0x40, 0x52, 0x2B, 0xAA, 0x7D, 0x84, 0x01, 0x52,
      0x78]) =
    .ok (.rxpacket (.complete ⟨0x0013A200, 0x40522BAA⟩ ⟨0x7D, 0x84⟩ 0x01 [0x52, 0x78])) ∧
  decode (.outbound [0x10, 0x01, 0x00, 0x13, 0xA2, 0x00, 0x40, 0x0A, 0x01, 0x27, 0xFF, 0xFE, 0x00,
      0x40, 0x54]) =
    .ok (.txrequest (.outbound ⟨0x01, ⟨0x0013A200, 0x400A0127⟩, .unknown, 0x00, 0x40, [0x54]⟩)) ∧
  decode (.inbound [0x88]) = .ok (.atresp []) ∧
  decode (.inbound [0x8A]) = .ok (.modemstatus []) ∧
  decode (.inbound [0x97]) = .ok (.remoteatresp []) ∧
  decode (.inbound [0x10]) = .ok (.txrequest (.inbound [])) ∧
  decode (.inbound [0x00]) = .error (.inbound (.unknownTag 0x00)) ∧
  decode (.inbound []) = .error (.inbound .emptyPayload)

/-- Decoding an encoded well-formed instruction gives it back, for every instruction of the opcode
table and every value of every operand (R90 to R94). -/
def Obligations.DecodeOfEncodeIsIdentity : Prop :=
  ∀ i : Instr, i.wf = true → decode (encode i) = .ok i

/-- Every payload has one reading: encoding what a payload decodes to gives the payload back, so the
decoder drops no bit and confuses no two payloads (R90 to R94). -/
def Obligations.EncodeOfDecodeIsIdentity : Prop :=
  (∀ (p : List Byte) (i : Instr), decodeInbound p = .ok i → encode i = .inbound p) ∧
  (∀ (p : List Byte) (i : Instr), decodeOutbound p = .ok i → encode i = .outbound p)

/-- R112 and R113: the eight bytes of an extended address, most significant first, in both
directions, with the named values. -/
def Obligations.ExtendedAddressBytesAreBigEndian : Prop :=
  (∀ (a : ExtendedAddress) (i : Fin 8), (byteAt a i).toNat =
    if i.val ≤ 3 then a.high.toNat / 2 ^ (8 * (3 - i.val)) % 256
    else a.low.toNat / 2 ^ (8 * (7 - i.val)) % 256) ∧
  (∀ (a : ExtendedAddress) (i : Fin 8), (ser64 a)[i.val]? = some (byteAt a i)) ∧
  (∀ m0 m1 m2 m3 m4 m5 m6 m7 : Byte,
    (par64 m0 m1 m2 m3 m4 m5 m6 m7).high.toNat =
      m0.toNat * 2 ^ 24 + m1.toNat * 2 ^ 16 + m2.toNat * 2 ^ 8 + m3.toNat ∧
    (par64 m0 m1 m2 m3 m4 m5 m6 m7).low.toNat =
      m4.toNat * 2 ^ 24 + m5.toNat * 2 ^ 16 + m6.toNat * 2 ^ 8 + m7.toNat ∧
    ser64 (par64 m0 m1 m2 m3 m4 m5 m6 m7) = [m0, m1, m2, m3, m4, m5, m6, m7]) ∧
  (∀ a : ExtendedAddress,
    par64 (byteAt a 0) (byteAt a 1) (byteAt a 2) (byteAt a 3) (byteAt a 4) (byteAt a 5)
      (byteAt a 6) (byteAt a 7) = a) ∧
  ExtendedAddress.coordinator = ⟨0, 0⟩ ∧ ExtendedAddress.broadcast = ⟨0, 0xFFFF⟩ ∧
  ser64 .broadcast = [0x00, 0x00, 0x00, 0x00, 0x00, 0x00, 0xFF, 0xFF] ∧
  byteAt ⟨0x0013A200, 0x400A0127⟩ 2 = 0xA2 ∧ byteAt ⟨0x0013A200, 0x400A0127⟩ 7 = 0x27 ∧
  par64 0x00 0x13 0xA2 0x00 0x40 0x0A 0x01 0x27 = ⟨0x0013A200, 0x400A0127⟩

/-- R110: a short address is its two bytes, high first, in both directions. -/
def Obligations.ShortAddressIsTwoBytes : Prop :=
  (∀ a : ShortAddress, ser16 a = [a.high, a.low] ∧ par16 a.high a.low = a) ∧
  (∀ b0 b1 : Byte, par16 b0 b1 = ⟨b0, b1⟩ ∧ ser16 (par16 b0 b1) = [b0, b1]) ∧
  ser16 ⟨0x7D, 0x84⟩ = [0x7D, 0x84]

/-- R116: exactly the bits 0, 1 and 5 of a received option byte survive, and they are the three
named ones. -/
def Obligations.RxOptionsKeepOnlyNamedBits : Prop :=
  (∀ (b : Byte) (i : Nat), (parRxOpt b).getLsbD i =
    (b.getLsbD i && (i == 0 || i == 1 || i == 5))) ∧
  RxOptions.packetAcknowledged = 0x01 ∧ RxOptions.broadcastPacket = 0x02 ∧
  RxOptions.packetEncrypted = 0x20 ∧
  parRxOpt 0x00 = 0x00 ∧ parRxOpt 0xFF = 0x23 ∧ parRxOpt 0xDC = 0x00 ∧ parRxOpt 0xC3 = 0x03

/-- R119 and R120 in the model's parameters: a recognised byte is itself, any other is the error that
carries it; 0x00 (status) and 0x01 (discovery) are recognised in every legal configuration. -/
def Obligations.StatusBytesDecodeOrCarryRaw : Prop :=
  ∀ (c : Config) (b : Byte),
    (b ∈ c.txStatusKnown → decTxStatus c b = .ok b) ∧
    (b ∉ c.txStatusKnown → decTxStatus c b = .error b) ∧
    (b ∈ c.discoKnown → decDisco c b = .ok b) ∧
    (b ∉ c.discoKnown → decDisco c b = .error b) ∧
    (c.wf → decTxStatus c 0x00 = .ok 0x00 ∧ decDisco c 0x01 = .ok 0x01)

/-- R90, R115, R142: what stands at each offset of a TXREQUEST payload, and of the wire frame three
bytes later. -/
def Obligations.TxRequestPayloadLayout : Prop :=
  ∀ f : TxRequest,
    (payloadOf f)[0]? = some 0x10 ∧ (payloadOf f)[1]? = some f.frameId ∧
    (∀ i : Fin 8, (payloadOf f)[2 + i.val]? = some (byteAt f.destMac i)) ∧
    (payloadOf f)[10]? = some f.destAddr.high ∧ (payloadOf f)[11]? = some f.destAddr.low ∧
    (payloadOf f)[12]? = some f.bcRadius ∧ (payloadOf f)[13]? = some f.options ∧
    (∀ j : Nat, (payloadOf f)[14 + j]? = f.data[j]?) ∧
    (∀ k : Nat, k < (payloadOf f).length → (wire f)[3 + k]? = (payloadOf f)[k]?)

/-- R141 and R145: the payload length is known from the length of the data alone, it is the length
of the payload, and the whole frame is four bytes longer. -/
def Obligations.EncodedLengthIsExact : Prop :=
  ∀ f : TxRequest, encodedLength f = 14 + f.data.length ∧
    (payloadOf f).length = encodedLength f ∧ (wire f).length = 14 + f.data.length + 4

/-- R80, R82: start delimiter, length field most significant byte first, payload, checksum. -/
def Obligations.FrameCarriesBigEndianLength : Prop :=
  (∀ h l : Byte, (be16 h l).toNat = h.toNat * 256 + l.toNat) ∧
  (∀ p : List Byte, p.length ≤ 65535 → ∃ h l : Byte,
    frameAround p = [0x7E, h, l] ++ p ++ [0xFF - sum8 p] ∧ (be16 h l).toNat = p.length ∧
    (frameAround p).length = p.length + 4)

/-- R84 and R85: the rule that computes the checksum and the rule that verifies it describe the
same frames. -/
def Obligations.WellFormedFramesAreTheBuiltOnes : Prop :=
  (∀ p : List Byte, (checksum p).toNat = 0xFF - (p.map BitVec.toNat).sum % 256) ∧
  (∀ bs : List Byte, isFrame bs = true ↔ ∃ p : List Byte, p.length ≤ 65535 ∧ bs = frameAround p)

/-- R125, which the spec marks as derived: replacing one payload or checksum byte of a well-formed
frame by another value is always noticed. -/
def Obligations.ChecksumDetectsAnyOneByteChange : Prop :=
  ∀ (p : List Byte) (i : Nat) (b : Byte), p.length ≤ 65535 → 3 ≤ i → i < p.length + 4 →
    (frameAround p)[i]? ≠ some b → isFrame ((frameAround p).set i b) = false

/-! ### ENC -/

/-- The accepting step of ENCODE for every frame that passes the length test (43_encoder.md
section 2; decisions D1, D2, D6): the registers, the staged wire image at the indices from 0 on, and
nothing else changed. That executing the outbound TXREQUEST is the same step is the model's reading
(DEDUCED, log entry 15: R140 gives it no step of its own). -/
def Obligations.EncodeStagesTheWireImage : Prop :=
  ∀ (f : TxRequest) (s : State), s.config.wf → s.enc.state = .idle →
    encodedLength f ≤ s.config.cap →
    ∃ t, exec (.encode f) s = .next t ∧ exec (.txrequest (.outbound f)) s = .next t ∧
      t.enc.state = .send ∧ t.enc.len.toNat = 14 + f.data.length ∧
      t.enc.total.toNat = 14 + f.data.length + 4 ∧ t.enc.idx = 0 ∧
      t.enc.sum = sum8 (payloadOf f) ∧ t.enc.out = none ∧
      (∀ a, a < (wire f).length → t.enc.buf.read a = (wire f)[a]?) ∧
      (∀ a, (wire f).length ≤ a → t.enc.buf.read a = s.enc.buf.read a) ∧
      t.enc.requests = s.enc.requests ∧ t.enc.answers = s.enc.answers ∧
      t.enc.accepted = s.enc.accepted ∧
      t.dec = s.dec ∧ t.config = s.config ∧ t.schedule = s.schedule

/-- ENCODE of a frame that is too long (43_encoder.md section 2; decision D6): the outcome is
`Failed(Overflow)` and nothing else changes. The same for the outbound TXREQUEST is the model's
reading (DEDUCED, log entry 15). -/
def Obligations.EncodeOverflowWritesNothing : Prop :=
  ∀ (f : TxRequest) (s : State), s.enc.state = .idle → s.config.cap < encodedLength f →
    exec (.encode f) s =
      .next { s with enc := { s.enc with out := some (.failed .overflow) } } ∧
    exec (.txrequest (.outbound f)) s =
      .next { s with enc := { s.enc with out := some (.failed .overflow) } }

/-- The frame of ENCODE (43_encoder.md section 2, 10_state.md section 7), and of the outbound
TXREQUEST as the model reads it (DEDUCED, log entry 15), whatever comes of them: DEC, the inputs, the
streams and the parameters are as before, and so is every cell of `ENC_BUF` outside the wire image;
every cell at all when the command overflows. -/
def Obligations.EncodeFrame : Prop :=
  ∀ (f : TxRequest) (s t : State),
    (exec (.encode f) s = .next t ∨ exec (.txrequest (.outbound f)) s = .next t) →
    t.dec = s.dec ∧ t.config = s.config ∧ t.schedule = s.schedule ∧
    t.enc.requests = s.enc.requests ∧ t.enc.answers = s.enc.answers ∧
    t.enc.accepted = s.enc.accepted ∧
    (∀ a, (wire f).length ≤ a → t.enc.buf.read a = s.enc.buf.read a) ∧
    (s.config.cap < encodedLength f →
      t.enc.state = s.enc.state ∧ t.enc.len = s.enc.len ∧ t.enc.total = s.enc.total ∧
      t.enc.idx = s.enc.idx ∧ t.enc.sum = s.enc.sum ∧
      ∀ a, t.enc.buf.read a = s.enc.buf.read a)

/-- A command is refused exactly when its engine is busy (10_state.md section 10, decision D4; the
model's refusals, log entry 10). That the outbound TXREQUEST is refused as ENCODE is the model's
reading (DEDUCED, log entry 15). -/
def Obligations.CommandsRefusedExactlyWhenBusy : Prop :=
  (∀ (f : TxRequest) (s : State), (exec (.encode f) s = .refused .encoderBusy ↔
    s.enc.state ≠ .idle) ∧ (exec (.txrequest (.outbound f)) s = .refused .encoderBusy ↔
    s.enc.state ≠ .idle)) ∧
  (∀ s : State, exec .read s = .refused .decoderBusy ↔ s.dec.state ≠ .idle)

/-- R198: the answer NotReady changes no register and no cell, and the next step offers the same
byte again. Only the answer itself is used up. -/
def Obligations.SinkNotReadyChangesNothing : Prop :=
  ∀ (s : State) (b : Byte), nextTurn s = .enc → s.enc.state = .send →
    s.enc.idx.toNat < s.config.cap + 4 → s.sinkOffer = some b → sinkAnswer s = .notReady →
    ∃ t, step s = .next t ∧ t.sinkOffer = some b ∧
      t = { s with
        enc := { s.enc with answers := s.enc.answers.tail, out := none }
        schedule := s.schedule.tail }

/-- The answer Accepted (43_encoder.md section 3; decision D33 for the step that reports Ok): the
offered byte joins the stream, `enc_idx` moves on, and the last byte ends the command with `Ok`. -/
def Obligations.SinkAcceptedSendsOneByte : Prop :=
  ∀ (s : State) (b : Byte), nextTurn s = .enc → s.enc.state = .send →
    s.enc.idx.toNat < s.config.cap + 4 → s.sinkOffer = some b → sinkAnswer s = .accepted →
    ∃ t, step s = .next t ∧ t.enc.idx = s.enc.idx + 1 ∧
      t.enc.accepted = s.enc.accepted ++ [b] ∧ t.enc.answers = s.enc.answers.tail ∧
      (s.enc.idx + 1 = s.enc.total → t.enc.state = .idle ∧ t.enc.out = some .ok) ∧
      (s.enc.idx + 1 ≠ s.enc.total → t.enc.state = .send ∧ t.enc.out = none) ∧
      t.enc.len = s.enc.len ∧ t.enc.total = s.enc.total ∧ t.enc.sum = s.enc.sum ∧
      t.enc.buf = s.enc.buf ∧ t.enc.requests = s.enc.requests ∧ t.dec = s.dec ∧
      t.config = s.config

/-- R199: a sink error ends ENCODE with that error, unchanged; what was accepted stays sent, and
`enc_idx` still counts it. -/
def Obligations.SinkErrorEndsEncode : Prop :=
  ∀ (s : State) (b : Byte) (e : SinkErr), nextTurn s = .enc → s.enc.state = .send →
    s.enc.idx.toNat < s.config.cap + 4 → s.sinkOffer = some b → sinkAnswer s = .error e →
    step s = .next { s with
      enc := { s.enc with
        state := .idle, out := some (.failed (.other e)), answers := s.enc.answers.tail }
      schedule := s.schedule.tail }

/-- A whole ENCODE (43_encoder.md section 4, derived there): if the sink accepts as many bytes as the
frame has, with any NotReady answers between them, the bytes accepted are the wire frame, each
exactly once and in order, and the outcome is `Ok` in the step of the last. -/
def Obligations.EncodeEmitsExactlyTheFrame : Prop :=
  ∀ (s : State) (f : TxRequest) (later : List TxRequest) (answers rest : List SinkAnswer)
    (order : List Turn),
    s.Inv → s.enc.state = .idle → s.enc.requests = f :: later →
    encodedLength f ≤ s.config.cap → s.enc.answers = answers ++ rest →
    (∀ a ∈ answers, a = .accepted ∨ a = .notReady) →
    answers.count .accepted = encodedLength f + 4 → answers.getLast? = some .accepted →
    s.schedule = List.replicate (answers.length + 1) .enc ++ order →
    ∃ t, Sys2Proof.core.run (answers.length + 1) s = .next t ∧
      t.enc.state = .idle ∧ t.enc.out = some .ok ∧
      t.enc.accepted = s.enc.accepted ++ wire f ∧ t.enc.answers = rest ∧
      t.enc.requests = later ∧ t.dec = s.dec ∧ t.config = s.config ∧ t.schedule = order

/-- An ENCODE cut off by a sink error (43_encoder.md section 4, derived there): the bytes accepted
before it are the first bytes of the frame, a proper part of it. -/
def Obligations.EncodeErrorLeavesAnInitialPart : Prop :=
  ∀ (s : State) (f : TxRequest) (later : List TxRequest) (answers rest : List SinkAnswer)
    (e : SinkErr) (order : List Turn),
    s.Inv → s.enc.state = .idle → s.enc.requests = f :: later →
    encodedLength f ≤ s.config.cap → s.enc.answers = answers ++ .error e :: rest →
    (∀ a ∈ answers, a = .accepted ∨ a = .notReady) →
    answers.count .accepted < encodedLength f + 4 →
    s.schedule = List.replicate (answers.length + 2) .enc ++ order →
    ∃ t, Sys2Proof.core.run (answers.length + 2) s = .next t ∧
      t.enc.state = .idle ∧ t.enc.out = some (.failed (.other e)) ∧
      t.enc.idx.toNat = answers.count .accepted ∧
      t.enc.accepted = s.enc.accepted ++ (wire f).take (answers.count .accepted) ∧
      t.enc.answers = rest ∧ t.dec = s.dec

/-! ### DEC: the command and the polls -/

/-- The accepting step of READ (44_decoder.md section 2; decision D27): the last delivery is
withdrawn, the sequencer goes to `D_START`, and nothing else changes. -/
def Obligations.ReadStartsAFreshFrame : Prop :=
  ∀ s : State, s.dec.state = .idle →
    exec .read s =
      .next { s with dec := { s.dec with frame := none, state := .start, out := none } }

/-- R223: the answer NotReady, in any of the four polling states, changes no register and no cell
and consumes nothing. Only the answer itself is used up. -/
def Obligations.SourceNotReadyChangesNothing : Prop :=
  ∀ s : State, nextTurn s = .dec → s.dec.state ≠ .idle → sourceAnswer s = .notReady →
    step s = .next { s with
      dec := { s.dec with answers := s.dec.answers.tail, out := none }
      schedule := s.schedule.tail }

/-- R224: a source error, in any of the four polling states, ends READ with that error, unchanged,
and consumes nothing more. -/
def Obligations.SourceErrorEndsRead : Prop :=
  ∀ (s : State) (e : SourceErr), nextTurn s = .dec → s.dec.state ≠ .idle →
    sourceAnswer s = .error e →
    step s = .next { s with
      dec := { s.dec with
        state := .idle, out := some (.failed (.other e)), answers := s.dec.answers.tail }
      schedule := s.schedule.tail }

/-- R225: the first byte must be 0x7E. Any other ends READ with `NoStart`, with exactly that byte
consumed. -/
def Obligations.OnlyTheStartDelimiterStarts : Prop :=
  ∀ (s : State) (b : Byte), nextTurn s = .dec → s.dec.state = .start →
    sourceAnswer s = .ready b →
    (b = 0x7E → step s = .next { s with
      dec := { s.dec with state := .lenHi, out := none, answers := s.dec.answers.tail,
                          consumed := s.dec.consumed + 1 }
      schedule := s.schedule.tail }) ∧
    (b ≠ 0x7E → step s = .next { s with
      dec := { s.dec with state := .idle, out := some (.failed .noStart),
                          answers := s.dec.answers.tail, consumed := s.dec.consumed + 1 }
      schedule := s.schedule.tail })

/-- The two length bytes (44_decoder.md section 4; decisions D7, D9): after them `dec_len` is the
big-endian length; a length that does not fit the buffer with its checksum byte ends READ with
`Overflow` and three bytes consumed in all; any other starts the body. -/
def Obligations.LengthBytesThenBodyOrOverflow : Prop :=
  ∀ (s : State) (hi lo : Byte) (rest : List SourceAnswer) (order : List Turn),
    s.dec.state = .lenHi → s.dec.answers = .ready hi :: .ready lo :: rest →
    s.schedule = .dec :: .dec :: order →
    ∃ t, Sys2Proof.core.run 2 s = .next t ∧
      t.dec.len.toNat = hi.toNat * 256 + lo.toNat ∧ t.dec.answers = rest ∧
      t.dec.consumed = s.dec.consumed + 2 ∧ t.dec.buf = s.dec.buf ∧ t.dec.frame = s.dec.frame ∧
      t.dec.requests = s.dec.requests ∧ t.enc = s.enc ∧ t.schedule = order ∧
      (s.config.cap < hi.toNat * 256 + lo.toNat + 1 →
        t.dec.state = .idle ∧ t.dec.out = some (.failed .overflow) ∧
        t.dec.idx = s.dec.idx ∧ t.dec.sum = s.dec.sum) ∧
      (hi.toNat * 256 + lo.toNat + 1 ≤ s.config.cap →
        t.dec.state = .body ∧ t.dec.out = none ∧ t.dec.idx = 0 ∧ t.dec.sum = 0)

/-- A body byte that is not the last (44_decoder.md section 4; decision D26): it is stored at
`dec_idx`, whatever its value, and the sequencer stays. -/
def Obligations.BodyByteIsStoredAtItsIndex : Prop :=
  ∀ (s : State) (b : Byte), nextTurn s = .dec → s.dec.state = .body →
    sourceAnswer s = .ready b → s.dec.idx.toNat < s.dec.len.toNat →
    s.dec.len.toNat + 1 ≤ s.config.cap →
    ∃ t, step s = .next t ∧ t.dec.state = .body ∧ t.dec.out = none ∧
      t.dec.buf.read s.dec.idx.toNat = some b ∧
      (∀ a, a ≠ s.dec.idx.toNat → t.dec.buf.read a = s.dec.buf.read a) ∧
      t.dec.sum = s.dec.sum + b ∧ t.dec.idx.toNat = s.dec.idx.toNat + 1 ∧
      t.dec.len = s.dec.len ∧ t.dec.frame = s.dec.frame ∧
      t.dec.consumed = s.dec.consumed + 1 ∧ t.enc = s.enc

/-- The last body byte with a wrong sum (44_decoder.md section 5; decision D10 for the value): READ
ends with `BadChecksum` of the sum of payload and checksum byte, and no frame is delivered. -/
def Obligations.WrongSumIsBadChecksum : Prop :=
  ∀ (s : State) (b : Byte), nextTurn s = .dec → s.dec.state = .body →
    sourceAnswer s = .ready b → s.dec.idx.toNat = s.dec.len.toNat →
    s.dec.len.toNat + 1 ≤ s.config.cap → s.dec.sum + b ≠ 0xFF →
    ∃ t, step s = .next t ∧ t.dec.state = .idle ∧
      t.dec.out = some (.failed (.badChecksum (s.dec.sum + b))) ∧
      t.dec.frame = s.dec.frame ∧ t.dec.consumed = s.dec.consumed + 1 ∧ t.enc = s.enc

/-- A frame without a payload (44_decoder.md section 6, decision D11): the body is the checksum byte
alone. -/
def Obligations.EmptyPayloadIsMalformed : Prop :=
  ∀ (s : State) (c : Byte), nextTurn s = .dec → s.dec.state = .body →
    sourceAnswer s = .ready c → s.dec.len = 0 → s.dec.idx = 0 → s.dec.sum = 0 →
    1 ≤ s.config.cap →
    ∃ t, step s = .next t ∧ t.dec.state = .idle ∧ t.dec.frame = s.dec.frame ∧
      t.dec.out = some (.failed
        (if c = 0xFF then .malformed .emptyPayload else .badChecksum c))

/-- A step runs the decoded instruction. A request at a command port is executed; the body of a
complete frame with a right checksum is decoded and executed, in the state in which the checksum
byte has been stored (44_decoder.md section 4 and 5). -/
def Obligations.StepRunsTheDecodedInstruction : Prop :=
  (∀ (s : State) (f : TxRequest) (later : List TxRequest), nextTurn s = .enc →
    s.enc.state = .idle → s.enc.requests = f :: later →
    step s = exec (.encode f) { s with
      enc := { s.enc with requests := later }, schedule := s.schedule.tail }) ∧
  (∀ s : State, nextTurn s = .dec → s.dec.state = .idle → 0 < s.dec.requests →
    step s = exec .read { s with
      dec := { s.dec with requests := s.dec.requests - 1 }, schedule := s.schedule.tail }) ∧
  (∀ (s : State) (b : Byte) (p : List Byte) (i : Instr), nextTurn s = .dec →
    s.dec.state = .body → sourceAnswer s = .ready b → s.dec.idx.toNat = s.dec.len.toNat →
    s.dec.len.toNat < s.config.cap → p.length = s.dec.len.toNat → Holds s.dec.buf p →
    s.dec.sum + b = 0xFF → decodeInbound p = .ok i →
    step s = exec i { s with
      dec := { s.dec with
        buf := s.dec.buf.write s.dec.idx.toNat b, sum := s.dec.sum + b,
        idx := s.dec.idx + 1, answers := s.dec.answers.tail, out := none,
        consumed := s.dec.consumed + 1 }
      schedule := s.schedule.tail })

/-! ### DEC: the frame types -/

/-- The fields of an RXPACKET of at least 12 payload bytes (42_inbound_parse.md section 2), and its
delivery (44_decoder.md section 5; decision D17): `dec_frame` and the outcome carry them, DEC is
idle, nothing else changes. That the delivered value owns a copy of the data is the model's choice
(DESIGN CHOICE, log entry 12); the window itself is `DataWindowStaysUntilTheNextRead`. -/
def Obligations.RxPacketDeliversItsFields : Prop :=
  ∀ (s : State) (m0 m1 m2 m3 m4 m5 m6 m7 addrHi addrLo options : Byte) (data : List Byte)
    (frame : Inbound),
    frame = .rxPacket
      { sourceMac := ⟨be32 m0 m1 m2 m3, be32 m4 m5 m6 m7⟩, sourceAddr := ⟨addrHi, addrLo⟩,
        options := options &&& 0x23, data := data } →
    decodeInbound (0x90 :: m0 :: m1 :: m2 :: m3 :: m4 :: m5 :: m6 :: m7 :: addrHi :: addrLo ::
        options :: data) =
      .ok (.rxpacket (.complete (par64 m0 m1 m2 m3 m4 m5 m6 m7) ⟨addrHi, addrLo⟩ options data)) ∧
    exec (.rxpacket (.complete (par64 m0 m1 m2 m3 m4 m5 m6 m7) ⟨addrHi, addrLo⟩ options data)) s =
      .next { s with dec := { s.dec with
        frame := some frame, state := .idle, out := some (.delivered frame) } }

/-- An RXPACKET of at most 11 payload bytes (42_inbound_parse.md section 2; at 11 the spec's decision
D13, log entry 19) is malformed: nothing is delivered. -/
def Obligations.ShortRxPacketIsMalformed : Prop :=
  ∀ (s : State) (rest : List Byte), rest.length + 1 ≤ 11 →
    decodeInbound (0x90 :: rest) = .ok (.rxpacket (.short rest)) ∧
    exec (.rxpacket (.short rest)) s = .next { s with
      dec := { s.dec with state := .idle, out := some (.failed (.malformed .rxPacketLength)) } }

/-- The fields of a TXSTATUS of at least 7 payload bytes with recognised status bytes
(42_inbound_parse.md section 3), and its delivery (44_decoder.md section 5; decision D17), as for an
RXPACKET. That bytes after the seventh are accepted and ignored is decision D12, the spec's choice
among the treatments it admits (log entry 19). -/
def Obligations.TxStatusDeliversItsFields : Prop :=
  ∀ (s : State) (frameId addrHi addrLo txrCount status disco : Byte) (trailing : List Byte)
    (frame : Inbound),
    status ∈ s.config.txStatusKnown → disco ∈ s.config.discoKnown →
    frame = .transmitStatus
      { frameId := frameId, destAddr := ⟨addrHi, addrLo⟩, txrCount := txrCount,
        status := status, discoStatus := disco } →
    decodeInbound (0x8B :: frameId :: addrHi :: addrLo :: txrCount :: status :: disco ::
        trailing) =
      .ok (.txstatus (.complete frameId ⟨addrHi, addrLo⟩ txrCount status disco trailing)) ∧
    exec (.txstatus (.complete frameId ⟨addrHi, addrLo⟩ txrCount status disco trailing)) s =
      .next { s with dec := { s.dec with
        frame := some frame, state := .idle, out := some (.delivered frame) } }

/-- A TXSTATUS with an unrecognised status byte fails and carries the raw byte, the status before
the discovery status (42_inbound_parse.md section 3; decisions D14, D16). -/
def Obligations.UnknownStatusIsMalformedWithRawByte : Prop :=
  ∀ (s : State) (frameId txrCount status disco : Byte) (addr : ShortAddress)
    (trailing : List Byte),
    (status ∉ s.config.txStatusKnown →
      exec (.txstatus (.complete frameId addr txrCount status disco trailing)) s =
        .next { s with dec := { s.dec with
          state := .idle, out := some (.failed (.malformed (.txStatusCode status))) } }) ∧
    (status ∈ s.config.txStatusKnown → disco ∉ s.config.discoKnown →
      exec (.txstatus (.complete frameId addr txrCount status disco trailing)) s =
        .next { s with dec := { s.dec with
          state := .idle, out := some (.failed (.malformed (.discoStatusCode disco))) } })

/-- A TXSTATUS of fewer than 7 payload bytes (42_inbound_parse.md section 3; decision D12) is
malformed. -/
def Obligations.ShortTxStatusIsMalformed : Prop :=
  ∀ (s : State) (rest : List Byte), rest.length + 1 < 7 →
    decodeInbound (0x8B :: rest) = .ok (.txstatus (.short rest)) ∧
    exec (.txstatus (.short rest)) s = .next { s with
      dec := { s.dec with state := .idle, out := some (.failed (.malformed .txStatusLength)) } }

/-- The frame types DEC has no parser for: the three reserved tags (42_inbound_parse.md section 4;
decision D18) and an inbound TXREQUEST. Each fails with its own tag, whatever follows the tag. -/
def Obligations.UnparsedTagsAreUnsupported : Prop :=
  ∀ (s : State) (rest : List Byte),
    exec (.atresp rest) s = .next { s with
      dec := { s.dec with state := .idle, out := some (.failed (.unsupported 0x88)) } } ∧
    exec (.modemstatus rest) s = .next { s with
      dec := { s.dec with state := .idle, out := some (.failed (.unsupported 0x8A)) } } ∧
    exec (.remoteatresp rest) s = .next { s with
      dec := { s.dec with state := .idle, out := some (.failed (.unsupported 0x97)) } } ∧
    exec (.txrequest (.inbound rest)) s = .next { s with
      dec := { s.dec with state := .idle, out := some (.failed (.unsupported 0x10)) } }

/-- R171: every payload whose first byte is neither 0x90 nor 0x8B fails with `Unsupported` carrying
that byte, whatever the rest. First what decoding and executing it gives, then the step that completes
such a body with a right checksum. -/
def Obligations.EveryOtherTagIsUnsupported : Prop :=
  ∀ (s : State) (tag : Byte) (rest : List Byte), tag ≠ 0x90 → tag ≠ 0x8B →
    ((∃ r, decodeInbound (tag :: rest) = .error r ∧ rejectError r = .unsupported tag) ∨
     (∃ i, decodeInbound (tag :: rest) = .ok i ∧
       exec i s = .next { s with
         dec := { s.dec with state := .idle, out := some (.failed (.unsupported tag)) } })) ∧
    ∀ b : Byte, nextTurn s = .dec → s.dec.state = .body → sourceAnswer s = .ready b →
      s.dec.idx.toNat = s.dec.len.toNat → s.dec.len.toNat + 1 ≤ s.config.cap →
      rest.length + 1 = s.dec.len.toNat → Holds s.dec.buf (tag :: rest) → s.dec.sum + b = 0xFF →
      ∃ t, step s = .next t ∧ t.dec.state = .idle ∧
        t.dec.out = some (.failed (.unsupported tag)) ∧ t.dec.frame = s.dec.frame ∧
        t.dec.len = s.dec.len ∧ t.dec.consumed = s.dec.consumed + 1 ∧ t.enc = s.enc

/-- The frame of the inbound frame types: ENC, the parameters, the inputs, the registers `dec_len`,
`dec_idx`, `dec_sum` and every cell of `DEC_BUF` are as before; `dec_frame` changes only when its
value is delivered, and DEC is idle afterwards. -/
def Obligations.InboundFrame : Prop :=
  ∀ (i : Instr) (s t : State), isInbound i = true → exec i s = .next t →
    t.enc = s.enc ∧ t.config = s.config ∧ t.schedule = s.schedule ∧
    t.dec.len = s.dec.len ∧ t.dec.idx = s.dec.idx ∧ t.dec.sum = s.dec.sum ∧
    t.dec.requests = s.dec.requests ∧ t.dec.answers = s.dec.answers ∧
    t.dec.consumed = s.dec.consumed ∧ (∀ a, t.dec.buf.read a = s.dec.buf.read a) ∧
    t.dec.state = .idle ∧
    ((∃ f, t.dec.out = some (.delivered f) ∧ t.dec.frame = some f) ∨
     (∃ e, t.dec.out = some (.failed e) ∧ t.dec.frame = s.dec.frame))

/-- The completion step is the parser of the spec (42_inbound_parse.md, 44_decoder.md section 5):
fetching the payload from `DEC_BUF`, decoding it to an instruction and executing that gives the
outcome that `parse` and the checksum rule give on the received bytes, `dec_frame` with it. -/
def Obligations.CompletionRefinesTheSpecParser : Prop :=
  ∀ (s : State) (b : Byte), s.Inv → nextTurn s = .dec → s.dec.state = .body →
    sourceAnswer s = .ready b → s.dec.idx.toNat = s.dec.len.toNat →
    ∃ p t, p.length = s.dec.len.toNat ∧ Holds s.dec.buf p ∧ step s = .next t ∧
      t.dec.state = .idle ∧
      t.dec.out = some (readOutcome s.config p (sum8 (p ++ [b]))) ∧
      t.dec.frame = deliveredFrame (readOutcome s.config p (sum8 (p ++ [b]))) ∧
      t.dec.consumed = s.dec.consumed + 1 ∧ t.enc = s.enc

/-- A whole READ (44_decoder.md section 6, derived there): from the bytes of one frame, with any
NotReady answers between them, the outcome depends on the payload and the checksum byte alone,
and exactly the `L + 4` bytes of the frame are consumed. Nothing left in the registers or the
buffer by earlier commands plays a part. -/
def Obligations.ReadOfOneFrame : Prop :=
  ∀ (s : State) (p : List Byte) (c : Byte) (reads : Nat) (answers rest : List SourceAnswer)
    (order : List Turn),
    s.Inv → s.dec.state = .idle → s.dec.requests = reads + 1 → p.length + 1 ≤ s.config.cap →
    s.dec.answers = answers ++ rest →
    (∀ a ∈ answers, a = .notReady ∨ ∃ b, a = .ready b) →
    readyBytes answers =
      [0x7E, hi8 (BitVec.ofNat 16 p.length), lo8 (BitVec.ofNat 16 p.length)] ++ p ++ [c] →
    answers.getLast? = some (.ready c) →
    s.schedule = List.replicate (answers.length + 1) .dec ++ order →
    ∃ t, Sys2Proof.core.run (answers.length + 1) s = .next t ∧
      t.dec.state = .idle ∧
      t.dec.out = some (readOutcome s.config p (sum8 (p ++ [c]))) ∧
      t.dec.frame = deliveredFrame (readOutcome s.config p (sum8 (p ++ [c]))) ∧
      t.dec.consumed = s.dec.consumed + p.length + 4 ∧ t.dec.answers = rest ∧
      t.dec.requests = reads ∧ t.enc = s.enc ∧ t.schedule = order

/-- Every READ, whatever the transport answers (44_decoder.md, all of it; decisions D9 to D12, D24):
`NoStart`, `Overflow`, `Other` at any poll, a failure or a delivery of a complete frame, with
NotReady answers anywhere. The READ has ended, with the outcome, the bytes consumed and the answers
left over that `readOf` gives; or it has not ended, and still polls. When answers are left over, the
outcome is read after steps in which DEC waits: that an idle DEC waits so, and that its outcome stays
readable, are the model's choices (DESIGN CHOICE, log entries 6 and 11). -/
def Obligations.ReadEndsAsTheSpecSays : Prop :=
  ∀ (s : State) (answers : List SourceAnswer) (order : List Turn),
    s.Inv → s.dec.state = .idle → s.dec.requests = 1 → s.dec.answers = answers →
    s.schedule = List.replicate (answers.length + 1) .dec ++ order →
    ∃ t, Sys2Proof.core.run (answers.length + 1) s = .next t ∧
      t.enc = s.enc ∧ t.config = s.config ∧ t.schedule = order ∧ t.dec.requests = 0 ∧
      (∀ r, readOf s.config answers = some r →
        t.dec.state = .idle ∧ t.dec.out = some r.outcome ∧
        t.dec.frame = deliveredFrame r.outcome ∧
        t.dec.consumed = s.dec.consumed + r.consumed ∧ t.dec.answers = r.rest) ∧
      (readOf s.config answers = none →
        t.dec.state ≠ .idle ∧ t.dec.out = none ∧ t.dec.frame = none ∧ t.dec.answers = [])

/-- READ under fairness (70_reset_and_hazards.md section 4, decision D24): `CAP + 3` answers other than
NotReady end every READ, and NotReady answers alone never end one. When answers are left over, the
outcome is read after steps in which DEC waits: that an idle DEC waits so, and that its outcome stays
readable, are the model's choices (DESIGN CHOICE, log entries 6 and 11). -/
def Obligations.ReadEndsUnderFairness : Prop :=
  ∀ (s : State) (answers : List SourceAnswer) (order : List Turn),
    s.Inv → s.dec.state = .idle → s.dec.requests = 1 → s.dec.answers = answers →
    s.schedule = List.replicate (answers.length + 1) .dec ++ order →
    ∃ t, Sys2Proof.core.run (answers.length + 1) s = .next t ∧
      (s.config.cap + 3 ≤ answers.countP (· ≠ .notReady) →
        t.dec.state = .idle ∧ ∃ o, t.dec.out = some o) ∧
      ((∀ a ∈ answers, a = .notReady) → t.dec.state = .start ∧ t.dec.out = none ∧
        t.dec.consumed = s.dec.consumed)

/-- ENCODE under fairness (70_reset_and_hazards.md section 4, decision D24): as many answers other than
NotReady as the frame has bytes end it, with `Ok` or with an error the sink answered, and NotReady
answers alone never end it. When answers are left over, the outcome is read after steps in which ENC
waits: that an idle ENC waits so, and that its outcome stays readable, are the model's choices (DESIGN
CHOICE, log entries 6 and 11). -/
def Obligations.EncodeEndsUnderFairness : Prop :=
  ∀ (s : State) (f : TxRequest) (answers : List SinkAnswer) (order : List Turn),
    s.Inv → s.enc.state = .idle → s.enc.requests = [f] → encodedLength f ≤ s.config.cap →
    s.enc.answers = answers →
    s.schedule = List.replicate (answers.length + 1) .enc ++ order →
    ∃ t, Sys2Proof.core.run (answers.length + 1) s = .next t ∧
      (encodedLength f + 4 ≤ answers.countP (· ≠ .notReady) →
        t.enc.state = .idle ∧
        (t.enc.out = some .ok ∨
         ∃ e, SinkAnswer.error e ∈ answers ∧ t.enc.out = some (.failed (.other e)))) ∧
      ((∀ a ∈ answers, a = .notReady) → t.enc.state = .send ∧ t.enc.idx = 0 ∧
        t.enc.out = none ∧ t.enc.accepted = s.enc.accepted)

/-- An active engine always has a step, and each answer other than NotReady makes progress: the
position strictly advances, or the command ends (70_reset_and_hazards.md section 4, decision D24). -/
def Obligations.EveryAnswerMakesProgress : Prop :=
  (∀ s : State, s.Inv → nextTurn s = .enc → s.enc.state = .send →
    ∃ t, step s = .next t ∧ (sinkAnswer s ≠ .notReady →
      (t.enc.state = .idle ∧ ∃ o, t.enc.out = some o) ∨
      (t.enc.state = .send ∧ t.enc.idx.toNat = s.enc.idx.toNat + 1))) ∧
  (∀ s : State, s.Inv → nextTurn s = .dec → s.dec.state ≠ .idle →
    ∃ t, step s = .next t ∧ (sourceAnswer s ≠ .notReady →
      (t.dec.state = .idle ∧ ∃ o, t.dec.out = some o) ∨
      (t.dec.state ≠ .idle ∧ decPosition t.dec = decPosition s.dec + 1)))

/-- Loop-back (30_encoding.md section 4 and 70_reset_and_hazards.md section 3, derived there): the
frame that ENCODE emits passes START, length and checksum of READ and ends as
`Unsupported(0x10)`. -/
def Obligations.LoopBackIsUnsupported : Prop :=
  ∀ (s : State) (f : TxRequest) (reads : Nat) (rest : List SourceAnswer) (order : List Turn),
    s.Inv → s.dec.state = .idle → s.dec.requests = reads + 1 →
    encodedLength f + 1 ≤ s.config.cap →
    s.dec.answers = (wire f).map .ready ++ rest →
    s.schedule = List.replicate ((wire f).length + 1) .dec ++ order →
    ∃ t, Sys2Proof.core.run ((wire f).length + 1) s = .next t ∧ t.dec.state = .idle ∧
      t.dec.out = some (.failed (.unsupported 0x10)) ∧ t.dec.frame = none ∧
      t.dec.answers = rest

/-! ### The whole machine -/

/-- The values that 10_state.md section 11 gives for reset (decision D21): both sequencers idle, no
delivered frame, no pending command and no pending outcome. That `State.reset` has the default
parameters, with a capacity of 256, is the model's choice (PRESUMED, log entry 2). -/
def Obligations.ResetLeavesBothEnginesIdle : Prop :=
  ∀ c : Config,
    (State.resetWith c).config = c ∧
    (State.resetWith c).enc.state = .idle ∧ (State.resetWith c).dec.state = .idle ∧
    (State.resetWith c).dec.frame = none ∧
    (State.resetWith c).enc.requests = [] ∧ (State.resetWith c).dec.requests = 0 ∧
    (State.resetWith c).enc.out = none ∧ (State.resetWith c).dec.out = none ∧
    State.reset.config.cap = 256 ∧ State.reset = State.resetWith .default

/-- The invariant (10_state.md section 10) holds right after reset, with the default parameters and
with every legal choice of them. -/
def Obligations.InvariantHoldsAtReset : Prop :=
  State.reset.Inv ∧ ∀ c : Config, c.wf → (State.resetWith c).Inv

/-- Every step keeps the invariant (10_state.md section 10, derived there): the staged wire image,
the running sum, the bounds of the index registers, the canonical form of both buffers, and the
data window of a delivered frame. -/
def Obligations.EveryStepKeepsTheInvariant : Prop :=
  ∀ s t : State, s.Inv → step s = .next t → t.Inv

/-- No step of a state that satisfies the invariant faults or is refused (60_exceptions.md
section 4). -/
def Obligations.InvariantStatesNeverStop : Prop :=
  ∀ s : State, s.Inv → s.Safe

/-- For every legal configuration, every list of commands with any operands, every sequence of
answers of the transport and every interleaving, the machine runs from reset for any number of
steps without a fault or a refusal (60_exceptions.md section 4). -/
def Obligations.NoInputStopsTheMachine : Prop :=
  ∀ (c : Config) (frames : List TxRequest) (reads : Nat) (sink : List SinkAnswer)
    (source : List SourceAnswer) (order : List Turn) (n : Nat), c.wf →
    ((State.resetWith c).withInputs frames reads sink source order).SafeFor n

/-- A step is never refused, in any state at all: a command waits at its port until its engine is
idle (10_state.md section 10, decision D4; log entry 10). -/
def Obligations.StepIsNeverRefused : Prop :=
  ∀ (s : State) (r : Refusal), step s ≠ .refused r

/-- No step writes a parameter (10_state.md section 6, decision D5; log entry 1). -/
def Obligations.ParametersNeverChange : Prop :=
  ∀ s t : State, step s = .next t → t.config = s.config

/-- A step of ENC neither reads nor writes anything of DEC, and a step of DEC nothing of ENC
(10_state.md sections 1 and 7, decision D3). -/
def Obligations.EnginesDoNotInterfere : Prop :=
  (∀ s1 s2 t1 : State, nextTurn s1 = .enc → nextTurn s2 = .enc → s1.config = s2.config →
    s1.enc = s2.enc → step s1 = .next t1 →
    t1.dec = s1.dec ∧ ∃ t2, step s2 = .next t2 ∧ t2.enc = t1.enc ∧ t2.dec = s2.dec) ∧
  (∀ s1 s2 t1 : State, nextTurn s1 = .dec → nextTurn s2 = .dec → s1.config = s2.config →
    s1.dec = s2.dec → step s1 = .next t1 →
    t1.enc = s1.enc ∧ ∃ t2, step s2 = .next t2 ∧ t2.dec = t1.dec ∧ t2.enc = s2.enc)

/-- Steps of the two engines commute: which of them is scheduled first makes no difference to the
state after both (20_memory.md section 5, derived there). -/
def Obligations.EngineStepsCommute : Prop :=
  ∀ (s t : State) (order : List Turn),
    Sys2Proof.core.run 2 { s with schedule := .enc :: .dec :: order } = .next t ↔
    Sys2Proof.core.run 2 { s with schedule := .dec :: .enc :: order } = .next t

/-- The transport's errors are opaque (00_scope.md section 4, decision D19): with any other errors in
their place the machine takes the same steps, so it never looks into one, and what it reports is the
error it was given. -/
def Obligations.TransportErrorsAreOpaque : Prop :=
  ∀ (f : SinkErr → SinkErr) (g : SourceErr → SourceErr) (s t : State),
    step s = .next t → step (s.mapErr f g) = .next (t.mapErr f g)

/-- An idle engine without a request waits: nothing of the machine changes but the schedule
(10_state.md section 11; how the model waits is log entry 6). -/
def Obligations.IdleEnginesWait : Prop :=
  (∀ s : State, nextTurn s = .enc → s.enc.state = .idle → s.enc.requests = [] →
    step s = .next { s with schedule := s.schedule.tail }) ∧
  (∀ s : State, nextTurn s = .dec → s.dec.state = .idle → s.dec.requests = 0 →
    step s = .next { s with schedule := s.schedule.tail })

/-- Taking a failure (60_exceptions.md section 4; decision D1): the engine that fails becomes idle
with that outcome, no register or cell changes, and the engine accepts its next command at
once. -/
def Obligations.FailureLeavesTheEngineReady : Prop :=
  (∀ (s : State) (e : EncodeError),
    raise (.enc e) s =
      { s with enc := { s.enc with state := .idle, out := some (.failed e) } } ∧
    ∀ f, ∃ t, exec (.encode f) (raise (.enc e) s) = .next t) ∧
  (∀ (s : State) (e : DecodeError),
    raise (.dec e) s =
      { s with dec := { s.dec with state := .idle, out := some (.failed e) } } ∧
    ∃ t, exec .read (raise (.dec e) s) = .next t ∧ t.dec.state = .start)

/-- Reset in a running machine (70_reset_and_hazards.md section 1, decision D21; log entry 17):
commands are abandoned without an outcome, and what was sent or consumed stays so. -/
def Obligations.ResetInputAbandonsCommands : Prop :=
  ∀ s : State, nextTurn s = .reset →
    ∃ t, step s = .next t ∧ t.enc.state = .idle ∧ t.dec.state = .idle ∧ t.dec.frame = none ∧
      t.enc.out = none ∧ t.dec.out = none ∧ t.enc.requests = [] ∧ t.dec.requests = 0 ∧
      t.config = s.config ∧ t.enc.accepted = s.enc.accepted ∧
      t.dec.consumed = s.dec.consumed ∧ t.enc.answers = s.enc.answers ∧
      t.dec.answers = s.dec.answers

/-- The data window (20_memory.md section 6, decision D17): once a receive packet has been delivered,
the host reads its data in `DEC_BUF`, byte for byte, after every step until one accepts the next
READ or resets the machine. -/
def Obligations.DataWindowStaysUntilTheNextRead : Prop :=
  ∀ (s t : State) (r : RxPacket), s.Inv → s.dec.frame = some (.rxPacket r) →
    step s = .next t → nextTurn s ≠ .reset → ¬ (nextTurn s = .dec ∧ 0 < s.dec.requests) →
    t.dec.frame = some (.rxPacket r) ∧ ∀ i, t.hostReadData i = r.data[i]?
end

