-- ==== Sys2Proof/Laws/Codec.lean ====
section
/-! SUPPORT. Laws of the checksum, of the lengths of the layouts, and of what the payload decoders
answer. -/

namespace Sys2Proof

/-! ### Checksum -/

@[simp] theorem sum8_nil : sum8 [] = 0 := rfl

theorem foldl_add_start (a : Byte) (bs : List Byte) :
    bs.foldl (· + ·) a = a + bs.foldl (· + ·) 0 := by
  induction bs generalizing a with
  | nil => simp
  | cons b bs ih =>
    simp only [List.foldl_cons]
    rw [ih (a + b), ih (0 + b)]
    simp [BitVec.add_assoc]

@[simp] theorem sum8_cons (b : Byte) (bs : List Byte) : sum8 (b :: bs) = b + sum8 bs := by
  unfold sum8
  rw [List.foldl_cons, foldl_add_start]
  simp

@[simp] theorem sum8_append (xs ys : List Byte) : sum8 (xs ++ ys) = sum8 xs + sum8 ys := by
  induction xs with
  | nil => simp
  | cons x xs ih => simp [ih, BitVec.add_assoc]

/-- R85: the checksum byte brings the sum to 0xFF. -/
theorem sum8_add_checksum (p : List Byte) : sum8 p + checksum p = 0xFF := by
  unfold checksum
  rw [BitVec.add_comm, BitVec.sub_add_cancel]

/-! ### Lengths -/

@[simp] theorem length_ser64 (a : ExtendedAddress) : (ser64 a).length = 8 := rfl
@[simp] theorem length_ser16 (a : ShortAddress) : (ser16 a).length = 2 := rfl

@[simp] theorem length_payloadOf (f : TxRequest) : (payloadOf f).length = encodedLength f := by
  simp [payloadOf, encodedLength]
  omega

@[simp] theorem length_frameAround (p : List Byte) : (frameAround p).length = p.length + 4 := by
  simp [frameAround]

@[simp] theorem length_wire (f : TxRequest) : (wire f).length = encodedLength f + 4 := by
  simp [wire]

/-! ### The inbound payload decoders -/

/-- Everything the RXPACKET decoder answers. -/
theorem decodeRxPacket_cases (rest : List Byte) :
    (rest.length ≤ 10 ∧ decodeRxPacket rest = .short rest) ∨
    (∃ m0 m1 m2 m3 m4 m5 m6 m7 h l o data,
      rest = m0 :: m1 :: m2 :: m3 :: m4 :: m5 :: m6 :: m7 :: h :: l :: o :: data ∧
      decodeRxPacket rest = .complete (par64 m0 m1 m2 m3 m4 m5 m6 m7) ⟨h, l⟩ o data) := by
  rcases rest with _ | ⟨m0, _ | ⟨m1, _ | ⟨m2, _ | ⟨m3, _ | ⟨m4, _ | ⟨m5, _ | ⟨m6, _ | ⟨m7, _ |
    ⟨h, _ | ⟨l, _ | ⟨o, data⟩⟩⟩⟩⟩⟩⟩⟩⟩⟩⟩
  all_goals first
    | exact .inl ⟨by simp, rfl⟩
    | exact .inr ⟨m0, m1, m2, m3, m4, m5, m6, m7, h, l, o, data, rfl, rfl⟩

/-- Everything the TXSTATUS decoder answers. -/
theorem decodeTxStatus_cases (rest : List Byte) :
    (rest.length ≤ 5 ∧ decodeTxStatus rest = .short rest) ∨
    (∃ f h l t st ds ignored, rest = f :: h :: l :: t :: st :: ds :: ignored ∧
      decodeTxStatus rest = .complete f ⟨h, l⟩ t st ds ignored) := by
  rcases rest with _ | ⟨f, _ | ⟨h, _ | ⟨l, _ | ⟨t, _ | ⟨st, _ | ⟨ds, ignored⟩⟩⟩⟩⟩⟩
  all_goals first
    | exact .inl ⟨by simp, rfl⟩
    | exact .inr ⟨f, h, l, t, st, ds, ignored, rfl, rfl⟩

end Sys2Proof
end

