-- ==== Sys2Proof/Laws/Memory.lean ====
section
/-! SUPPORT. Laws of the staging buffers: a read after a write, the canonical form, and one law for
each load and store. -/

namespace Sys2Proof.Machine

theorem read_write_same (m : Memory) (a : Nat) (b : Byte) : (m.write a b).read a = some b := by
  induction m with
  | nil => simp [Memory.write, Memory.read]
  | cons c m ih =>
    obtain ⟨k, v⟩ := c
    simp only [Memory.write]
    split
    · simp [Memory.read]
    · split
      · simp [Memory.read]
      · have : ¬ k = a := by omega
        simp [Memory.read, this, ih]

theorem read_write_other (m : Memory) {a a' : Nat} (b : Byte) (h : a' ≠ a) :
    (m.write a b).read a' = m.read a' := by
  induction m with
  | nil => simp [Memory.write, Memory.read, h.symm]
  | cons c m ih =>
    obtain ⟨k, v⟩ := c
    simp only [Memory.write]
    split
    · simp [Memory.read, h.symm]
    · split
      · next h2 => simp [Memory.read, h.symm, ← h2]
      · simp [Memory.read, ih]

/-- A cell of the buffer after a write is the written one or an old one. -/
theorem mem_write {m : Memory} {a : Nat} {b : Byte} {c : Host.Cell} (h : c ∈ m.write a b) :
    c = (a, b) ∨ c ∈ m := by
  induction m with
  | nil => simpa [Memory.write] using h
  | cons d m ih =>
    obtain ⟨k, v⟩ := d
    simp only [Memory.write] at h
    split at h
    · simpa using h
    · split at h
      · rcases List.mem_cons.mp h with h | h
        · exact .inl h
        · exact .inr (List.mem_cons_of_mem _ h)
      · rcases List.mem_cons.mp h with h | h
        · exact .inr (by simp [h])
        · exact (ih h).imp_right (List.mem_cons_of_mem _)

/-- A write keeps the canonical form. -/
theorem write_wf {m : Memory} (a : Nat) (b : Byte) (h : m.wf) : (m.write a b).wf := by
  induction m with
  | nil => simp [Memory.wf, Memory.write]
  | cons c m ih =>
    obtain ⟨k, v⟩ := c
    obtain ⟨hk, hm⟩ := List.pairwise_cons.mp h
    simp only [Memory.write]
    split
    · next hlt =>
      refine List.pairwise_cons.mpr ⟨fun x hx => ?_, h⟩
      rcases List.mem_cons.mp hx with hx | hx
      · simpa [hx] using hlt
      · exact Nat.lt_trans hlt (hk x hx)
    · split
      · next heq =>
        exact List.pairwise_cons.mpr ⟨fun x hx => heq ▸ hk x hx, hm⟩
      · next h1 h2 =>
        refine List.pairwise_cons.mpr ⟨fun x hx => ?_, ih hm⟩
        rcases mem_write hx with hx | hx
        · simp only [hx]; omega
        · exact hk x hx

/-- A buffer whose cells all lie below `n`. -/
def InRange (n : Nat) (m : Memory) : Prop := ∀ c ∈ m, c.1 < n

theorem write_inRange {n : Nat} {m : Memory} {a : Nat} (b : Byte) (ha : a < n)
    (h : InRange n m) : InRange n (m.write a b) := by
  intro c hc
  rcases mem_write hc with rfl | hc
  · exact ha
  · exact h c hc

/-! ### Loads and stores -/

theorem load_ok {n : Nat} {m : Memory} {a : Nat} {b : Byte} (ha : a < n)
    (h : m.read a = some b) : load n m a = .ok b := by
  simp [load, ha, h]

/-- Everything a load can answer with a value. -/
theorem load_cases {n : Nat} {m : Memory} {a : Nat} {b : Byte} (h : load n m a = .ok b) :
    a < n ∧ m.read a = some b := by
  unfold load at h
  split at h
  · next ha =>
    split at h
    · next hb => exact ⟨ha, by simpa [hb] using h⟩
    · cases h
  · cases h

theorem store_ok {n : Nat} {m : Memory} {a : Nat} (b : Byte) (ha : a < n) :
    store n m a b = .ok (m.write a b) := by
  simp [store, ha]

/-- Everything a store can do. -/
theorem store_cases {n : Nat} {m m' : Memory} {a : Nat} {b : Byte} (h : store n m a b = .ok m') :
    a < n ∧ m' = m.write a b := by
  unfold store at h
  split at h
  · next ha => exact ⟨ha, by simpa using h.symm⟩
  · cases h

theorem loadRange_ok {n : Nat} {m : Memory} (bs : List Byte) (a : Nat)
    (hn : a + bs.length ≤ n) (h : ∀ i, i < bs.length → m.read (a + i) = bs[i]?) :
    loadRange n m a bs.length = .ok bs := by
  induction bs generalizing a with
  | nil => rfl
  | cons b bs ih =>
    have h0 := h 0 (by simp)
    have hl : load n m a = .ok b := load_ok (by simp at hn; omega) (by simpa using h0)
    have hr : loadRange n m (a + 1) bs.length = .ok bs := by
      refine ih (a + 1) (by simp at hn; omega) fun i hi => ?_
      have := h (i + 1) (by simpa using hi)
      simpa [Nat.add_assoc, Nat.add_comm 1 i] using this
    simp [loadRange, hl, hr]

/-- What a range of loads answers, byte for byte. -/
theorem loadRange_cases {n : Nat} {m : Memory} {a k : Nat} {bs : List Byte}
    (h : loadRange n m a k = .ok bs) :
    bs.length = k ∧ ∀ i, i < k → m.read (a + i) = bs[i]? := by
  induction k generalizing a bs with
  | zero =>
    simp only [loadRange, Except.ok.injEq] at h
    subst h
    simp
  | succ k ih =>
    simp only [loadRange] at h
    split at h
    · cases h
    · next b hb =>
      split at h
      · cases h
      · next bs' hbs =>
        obtain ⟨hlen, hread⟩ := ih hbs
        simp only [Except.ok.injEq] at h
        subst h
        refine ⟨by simp [hlen], fun i hi => ?_⟩
        cases i with
        | zero => simpa using (load_cases hb).2
        | succ i =>
          have := hread i (by omega)
          simpa [Nat.add_assoc, Nat.add_comm 1 i] using this

/-- A range of stores inside the buffer runs to its end. -/
theorem storeAll_ok {n : Nat} (m : Memory) (a : Nat) (bs : List Byte) (hn : a + bs.length ≤ n) :
    ∃ m', storeAll n m a bs = .ok m' := by
  induction bs generalizing m a with
  | nil => exact ⟨m, rfl⟩
  | cons b bs ih =>
    simp only [List.length_cons] at hn
    simp only [storeAll, store_ok b (show a < n by omega)]
    exact ih _ _ (by omega)

/-- Everything a range of stores does: the bytes stand from `a` on, every other cell is as before,
and the canonical form and the range of the indices are kept. -/
theorem storeAll_cases {n : Nat} {m m' : Memory} {a : Nat} {bs : List Byte}
    (h : storeAll n m a bs = .ok m') :
    (∀ i, i < bs.length → m'.read (a + i) = bs[i]?) ∧
    (∀ x, x < a ∨ a + bs.length ≤ x → m'.read x = m.read x) ∧
    (m.wf → m'.wf) ∧ (InRange n m → InRange n m') := by
  induction bs generalizing m a with
  | nil =>
    simp only [storeAll, Except.ok.injEq] at h
    subst h
    exact ⟨by simp, fun _ _ => rfl, id, id⟩
  | cons b bs ih =>
    simp only [storeAll] at h
    split at h
    · cases h
    · next m1 h1 =>
      obtain ⟨ha, rfl⟩ := store_cases h1
      obtain ⟨hin, hout, hwf, hr⟩ := ih h
      refine ⟨fun i hi => ?_, fun x hx => ?_, fun hm => hwf (write_wf _ _ hm),
        fun hm => hr (write_inRange _ ha hm)⟩
      · cases i with
        | zero => simp [hout a (.inl (by omega)), read_write_same]
        | succ i =>
          have := hin i (by simpa using hi)
          simpa [Nat.add_assoc, Nat.add_comm 1 i] using this
      · simp only [List.length_cons] at hx
        rw [hout x (by omega), read_write_other _ _ (by omega)]

end Sys2Proof.Machine
end

