-- ==== Sys2Proof/Laws/State.lean ====
section
/-! SUPPORT. What each named update of State leaves in each of its fields, so that no later proof
unfolds a record update. -/

namespace Sys2Proof.Machine

/-! ### Updates of ENC -/

@[simp] theorem finishEncode_config (s : State) : (finishEncode s).config = s.config := rfl
@[simp] theorem finishEncode_enc (s : State) :
    (finishEncode s).enc = { s.enc with state := .idle, out := some .ok } := rfl
@[simp] theorem finishEncode_dec (s : State) : (finishEncode s).dec = s.dec := rfl
@[simp] theorem finishEncode_schedule (s : State) : (finishEncode s).schedule = s.schedule := rfl

@[simp] theorem sinkPolled_config (s : State) : (sinkPolled s).config = s.config := rfl
@[simp] theorem sinkPolled_enc (s : State) :
    (sinkPolled s).enc = { s.enc with answers := s.enc.answers.tail, out := none } := rfl
@[simp] theorem sinkPolled_dec (s : State) : (sinkPolled s).dec = s.dec := rfl
@[simp] theorem sinkPolled_schedule (s : State) : (sinkPolled s).schedule = s.schedule := rfl

@[simp] theorem sinkTook_config (b : Byte) (s : State) : (sinkTook b s).config = s.config := rfl
@[simp] theorem sinkTook_enc (b : Byte) (s : State) :
    (sinkTook b s).enc = { s.enc with accepted := s.enc.accepted ++ [b] } := rfl
@[simp] theorem sinkTook_dec (b : Byte) (s : State) : (sinkTook b s).dec = s.dec := rfl
@[simp] theorem sinkTook_schedule (b : Byte) (s : State) :
    (sinkTook b s).schedule = s.schedule := rfl

@[simp] theorem startSending_config (f : TxRequest) (m : Memory) (s : State) :
    (startSending f m s).config = s.config := rfl
@[simp] theorem startSending_enc (f : TxRequest) (m : Memory) (s : State) :
    (startSending f m s).enc = { s.enc with
      len := BitVec.ofNat 16 (encodedLength f), total := BitVec.ofNat 17 (encodedLength f + 4),
      idx := 0, sum := sum8 (payloadOf f), buf := m, state := .send, out := none } := rfl
@[simp] theorem startSending_dec (f : TxRequest) (m : Memory) (s : State) :
    (startSending f m s).dec = s.dec := rfl
@[simp] theorem startSending_schedule (f : TxRequest) (m : Memory) (s : State) :
    (startSending f m s).schedule = s.schedule := rfl

@[simp] theorem advanceEnc_config (s : State) : (advanceEnc s).config = s.config := rfl
@[simp] theorem advanceEnc_enc (s : State) :
    (advanceEnc s).enc = { s.enc with idx := s.enc.idx + 1 } := rfl
@[simp] theorem advanceEnc_dec (s : State) : (advanceEnc s).dec = s.dec := rfl
@[simp] theorem advanceEnc_schedule (s : State) : (advanceEnc s).schedule = s.schedule := rfl

@[simp] theorem popEncode_config (s : State) : (popEncode s).config = s.config := rfl
@[simp] theorem popEncode_enc (s : State) :
    (popEncode s).enc = { s.enc with requests := s.enc.requests.tail } := rfl
@[simp] theorem popEncode_dec (s : State) : (popEncode s).dec = s.dec := rfl
@[simp] theorem popEncode_schedule (s : State) : (popEncode s).schedule = s.schedule := rfl

@[simp] theorem raise_enc_config (e : EncodeError) (s : State) :
    (raise (.enc e) s).config = s.config := rfl
@[simp] theorem raise_enc_enc (e : EncodeError) (s : State) :
    (raise (.enc e) s).enc = { s.enc with state := .idle, out := some (.failed e) } := rfl
@[simp] theorem raise_enc_dec (e : EncodeError) (s : State) : (raise (.enc e) s).dec = s.dec := rfl
@[simp] theorem raise_enc_schedule (e : EncodeError) (s : State) :
    (raise (.enc e) s).schedule = s.schedule := rfl

/-! ### Updates of DEC -/

@[simp] theorem deliver_config (f : Inbound) (s : State) : (deliver f s).config = s.config := rfl
@[simp] theorem deliver_enc (f : Inbound) (s : State) : (deliver f s).enc = s.enc := rfl
@[simp] theorem deliver_dec (f : Inbound) (s : State) :
    (deliver f s).dec = { s.dec with
      frame := some f, state := .idle, out := some (.delivered f) } := rfl
@[simp] theorem deliver_schedule (f : Inbound) (s : State) :
    (deliver f s).schedule = s.schedule := rfl

@[simp] theorem sourcePolled_config (s : State) : (sourcePolled s).config = s.config := rfl
@[simp] theorem sourcePolled_enc (s : State) : (sourcePolled s).enc = s.enc := rfl
@[simp] theorem sourcePolled_dec (s : State) :
    (sourcePolled s).dec = { s.dec with answers := s.dec.answers.tail, out := none } := rfl
@[simp] theorem sourcePolled_schedule (s : State) : (sourcePolled s).schedule = s.schedule := rfl

@[simp] theorem sourceGave_config (s : State) : (sourceGave s).config = s.config := rfl
@[simp] theorem sourceGave_enc (s : State) : (sourceGave s).enc = s.enc := rfl
@[simp] theorem sourceGave_dec (s : State) :
    (sourceGave s).dec = { s.dec with consumed := s.dec.consumed + 1 } := rfl
@[simp] theorem sourceGave_schedule (s : State) : (sourceGave s).schedule = s.schedule := rfl

@[simp] theorem startReading_config (s : State) : (startReading s).config = s.config := rfl
@[simp] theorem startReading_enc (s : State) : (startReading s).enc = s.enc := rfl
@[simp] theorem startReading_dec (s : State) :
    (startReading s).dec = { s.dec with frame := none, state := .start, out := none } := rfl
@[simp] theorem startReading_schedule (s : State) : (startReading s).schedule = s.schedule := rfl

@[simp] theorem gotoDec_config (d : DecSeq) (s : State) : (gotoDec d s).config = s.config := rfl
@[simp] theorem gotoDec_enc (d : DecSeq) (s : State) : (gotoDec d s).enc = s.enc := rfl
@[simp] theorem gotoDec_dec (d : DecSeq) (s : State) :
    (gotoDec d s).dec = { s.dec with state := d } := rfl
@[simp] theorem gotoDec_schedule (d : DecSeq) (s : State) :
    (gotoDec d s).schedule = s.schedule := rfl

@[simp] theorem setDecLen_config (l : U16) (s : State) : (setDecLen l s).config = s.config := rfl
@[simp] theorem setDecLen_enc (l : U16) (s : State) : (setDecLen l s).enc = s.enc := rfl
@[simp] theorem setDecLen_dec (l : U16) (s : State) :
    (setDecLen l s).dec = { s.dec with len := l } := rfl
@[simp] theorem setDecLen_schedule (l : U16) (s : State) :
    (setDecLen l s).schedule = s.schedule := rfl

@[simp] theorem startBody_config (s : State) : (startBody s).config = s.config := rfl
@[simp] theorem startBody_enc (s : State) : (startBody s).enc = s.enc := rfl
@[simp] theorem startBody_dec (s : State) :
    (startBody s).dec = { s.dec with idx := 0, sum := 0, state := .body } := rfl
@[simp] theorem startBody_schedule (s : State) : (startBody s).schedule = s.schedule := rfl

@[simp] theorem bodyStored_config (b : Byte) (m : Memory) (s : State) :
    (bodyStored b m s).config = s.config := rfl
@[simp] theorem bodyStored_enc (b : Byte) (m : Memory) (s : State) :
    (bodyStored b m s).enc = s.enc := rfl
@[simp] theorem bodyStored_dec (b : Byte) (m : Memory) (s : State) :
    (bodyStored b m s).dec = { s.dec with buf := m, sum := s.dec.sum + b, idx := s.dec.idx + 1 } := rfl
@[simp] theorem bodyStored_schedule (b : Byte) (m : Memory) (s : State) :
    (bodyStored b m s).schedule = s.schedule := rfl

@[simp] theorem popRead_config (s : State) : (popRead s).config = s.config := rfl
@[simp] theorem popRead_enc (s : State) : (popRead s).enc = s.enc := rfl
@[simp] theorem popRead_dec (s : State) :
    (popRead s).dec = { s.dec with requests := s.dec.requests - 1 } := rfl
@[simp] theorem popRead_schedule (s : State) : (popRead s).schedule = s.schedule := rfl

@[simp] theorem raise_dec_config (e : DecodeError) (s : State) :
    (raise (.dec e) s).config = s.config := rfl
@[simp] theorem raise_dec_enc (e : DecodeError) (s : State) : (raise (.dec e) s).enc = s.enc := rfl
@[simp] theorem raise_dec_dec (e : DecodeError) (s : State) :
    (raise (.dec e) s).dec = { s.dec with state := .idle, out := some (.failed e) } := rfl
@[simp] theorem raise_dec_schedule (e : DecodeError) (s : State) :
    (raise (.dec e) s).schedule = s.schedule := rfl

/-! ### Scheduling and reset -/

@[simp] theorem popTurn_config (s : State) : (popTurn s).config = s.config := rfl
@[simp] theorem popTurn_enc (s : State) : (popTurn s).enc = s.enc := rfl
@[simp] theorem popTurn_dec (s : State) : (popTurn s).dec = s.dec := rfl
@[simp] theorem popTurn_schedule (s : State) : (popTurn s).schedule = s.schedule.tail := rfl

@[simp] theorem applyReset_config (s : State) : (applyReset s).config = s.config := rfl
@[simp] theorem applyReset_enc (s : State) :
    (applyReset s).enc = { Enc.reset with answers := s.enc.answers, accepted := s.enc.accepted } := rfl
@[simp] theorem applyReset_dec (s : State) :
    (applyReset s).dec = { Dec.reset with answers := s.dec.answers, consumed := s.dec.consumed } := rfl
@[simp] theorem applyReset_schedule (s : State) : (applyReset s).schedule = s.schedule := rfl

/-- Two states with the same fields are the same. -/
theorem State.eq_of_fields {s t : State} (hc : s.config = t.config) (he : s.enc = t.enc)
    (hd : s.dec = t.dec) (hs : s.schedule = t.schedule) : s = t := by
  cases s; cases t; simp_all

end Sys2Proof.Machine
end

