-- ==== Sys2Proof/Laws/Steps.lean ====
section
/-! SUPPORT. What each meaning and each engine step can do, said once: if it answers a next state,
one of the listed cases holds. Invariants and frames are derived from these. -/

namespace Sys2Proof.Machine

/-! ### ENC -/

/-- The accepting step of ENCODE: `Overflow`, or the frame is staged. -/
theorem acceptOutbound_cases {f : TxRequest} {s t : State} (h : acceptOutbound f s = .next t) :
    s.enc.state = .idle ∧
    ((s.config.cap < encodedLength f ∧ t = raise (.enc .overflow) s) ∨
     (encodedLength f ≤ s.config.cap ∧ ∃ buf,
      storeAll (encBufSize s.config) s.enc.buf 0 (wire f) = .ok buf ∧ t = startSending f buf s)) := by
  unfold acceptOutbound at h
  split at h
  · cases h
  · next hidle =>
    refine ⟨hidle, ?_⟩
    split at h
    · next ho =>
      exact .inl ⟨by simpa [encOverflows] using ho, by simpa using h.symm⟩
    · next ho =>
      split at h
      · cases h
      · next buf hb =>
        exact .inr ⟨by simpa [encOverflows] using ho, buf, hb, by simpa using h.symm⟩

/-- An idle ENC always takes the accepting step: the buffer has room for what passes the test. -/
theorem acceptOutbound_next (f : TxRequest) {s : State} (h : s.enc.state = .idle) :
    ∃ t, acceptOutbound f s = .next t := by
  unfold acceptOutbound
  simp only [h]
  split
  · exact ⟨_, rfl⟩
  · next ho =>
    have hle : encodedLength f ≤ s.config.cap := by simpa [encOverflows] using ho
    obtain ⟨buf, hb⟩ := storeAll_ok (n := encBufSize s.config) s.enc.buf 0 (wire f)
      (by simp [encBufSize]; omega)
    exact ⟨_, by simp [hb]; rfl⟩

/-- A poll of the sink: one of its three answers. -/
theorem encPoll_cases {s t : State} (h : encPoll s = .next t) :
    ∃ b, load (encBufSize s.config) s.enc.buf s.enc.idx.toNat = .ok b ∧
    ((sinkAnswer s = .notReady ∧ t = sinkPolled s) ∨
     (∃ e, sinkAnswer s = .error e ∧ t = raise (.enc (.other e)) (sinkPolled s)) ∨
     (sinkAnswer s = .accepted ∧ s.enc.idx + 1 = s.enc.total ∧
      t = finishEncode (advanceEnc (sinkTook b (sinkPolled s)))) ∨
     (sinkAnswer s = .accepted ∧ s.enc.idx + 1 ≠ s.enc.total ∧
      t = advanceEnc (sinkTook b (sinkPolled s)))) := by
  unfold encPoll at h
  split at h
  · cases h
  · next b hb =>
    refine ⟨b, hb, ?_⟩
    cases ha : sinkAnswer s with
    | notReady => exact .inl ⟨rfl, by simpa [ha] using h.symm⟩
    | error e => exact .inr (.inl ⟨e, rfl, by simpa [ha] using h.symm⟩)
    | accepted =>
      have hidx : (advanceEnc (sinkTook b (sinkPolled s))).enc.idx = s.enc.idx + 1 := rfl
      have htot : (advanceEnc (sinkTook b (sinkPolled s))).enc.total = s.enc.total := rfl
      simp only [ha, allSent, hidx, htot] at h
      by_cases hs : s.enc.idx + 1 = s.enc.total
      · rw [if_pos (decide_eq_true hs)] at h
        exact .inr (.inr (.inl ⟨rfl, hs, by simpa using h.symm⟩))
      · rw [if_neg (by simpa using hs)] at h
        exact .inr (.inr (.inr ⟨rfl, hs, by simpa using h.symm⟩))

/-- What each answer of the sink makes of a poll whose byte can be read. -/
theorem encPoll_answers {s : State} {b : Byte}
    (hb : load (encBufSize s.config) s.enc.buf s.enc.idx.toNat = .ok b) :
    (sinkAnswer s = .notReady → encPoll s = .next (sinkPolled s)) ∧
    (∀ e, sinkAnswer s = .error e →
      encPoll s = .next (raise (.enc (.other e)) (sinkPolled s))) ∧
    (sinkAnswer s = .accepted → s.enc.idx + 1 = s.enc.total →
      encPoll s = .next (finishEncode (advanceEnc (sinkTook b (sinkPolled s))))) ∧
    (sinkAnswer s = .accepted → s.enc.idx + 1 ≠ s.enc.total →
      encPoll s = .next (advanceEnc (sinkTook b (sinkPolled s)))) := by
  have hsent : allSent (advanceEnc (sinkTook b (sinkPolled s))).enc =
      decide (s.enc.idx + 1 = s.enc.total) := rfl
  unfold encPoll
  rw [hb]
  refine ⟨fun ha => by simp [ha], fun e ha => by simp [ha], fun ha hs => ?_, fun ha hs => ?_⟩
  · simp only [ha, hsent, hs, decide_true, if_true]
  · simp only [ha, hsent, hs, decide_false, Bool.false_eq_true, if_false]

/-- A step of ENC: it waits, accepts a request, or polls. -/
theorem encStep_cases {s t : State} (h : encStep s = .next t) :
    (s.enc.state = .send ∧ encPoll s = .next t) ∨
    (s.enc.state = .idle ∧ s.enc.requests = [] ∧ t = s) ∨
    (∃ f rest, s.enc.state = .idle ∧ s.enc.requests = f :: rest ∧
      acceptOutbound f (popEncode s) = .next t) := by
  unfold encStep at h
  split at h
  · next hs => exact .inl ⟨hs, h⟩
  · next hs =>
    split at h
    · next hr => exact .inr (.inl ⟨hs, hr, by simpa using h.symm⟩)
    · next f rest hr => exact .inr (.inr ⟨f, rest, hs, hr, h⟩)

/-! ### DEC -/

/-- A frame type delivers a value or fails; nothing else of the state changes. -/
theorem exec_inbound {i : Instr} (hi : isInbound i = true) (s : State) :
    (∃ f, exec i s = .next (deliver f s)) ∨ (∃ e, exec i s = .next (raise (.dec e) s)) := by
  cases i with
  | encode f => cases hi
  | read => cases hi
  | txrequest form =>
    cases form with
    | outbound f => cases hi
    | inbound r => exact .inr ⟨_, rfl⟩
  | txstatus form =>
    cases form with
    | complete fid a c st ds ig =>
      simp only [exec, execTxstatus]
      split
      · exact .inl ⟨_, rfl⟩
      · exact .inr ⟨_, rfl⟩
    | short r => exact .inr ⟨_, rfl⟩
  | rxpacket form =>
    cases form with
    | complete m a o d => exact .inl ⟨_, rfl⟩
    | short r => exact .inr ⟨_, rfl⟩
  | atresp r => exact .inr ⟨_, rfl⟩
  | modemstatus r => exact .inr ⟨_, rfl⟩
  | remoteatresp r => exact .inr ⟨_, rfl⟩

/-- The inbound decoder answers frame types of DEC only. -/
theorem decodeInbound_isInbound {p : List Byte} {i : Instr} (h : decodeInbound p = .ok i) :
    isInbound i = true := by
  unfold decodeInbound at h
  split at h
  · cases h
  · repeat' split at h
    all_goals cases h
    all_goals rfl

/-- Completion: a wrong checksum, a fault of a load, a failure, or a delivery. -/
theorem completeFrame_cases {s t : State} (h : completeFrame s = .next t) :
    (s.dec.sum ≠ 0xFF#8 ∧ t = raise (.dec (.badChecksum s.dec.sum)) s) ∨
    (s.dec.sum = 0xFF#8 ∧ ∃ p,
      loadRange (decBufSize s.config) s.dec.buf 0 s.dec.len.toNat = .ok p ∧
      ((∃ r, decodeInbound p = .error r ∧ t = raise (.dec (rejectError r)) s) ∨
       (∃ i, decodeInbound p = .ok i ∧ exec i s = .next t))) := by
  simp only [completeFrame, fetchInbound, checksumValid, decide_eq_true_eq] at h
  split at h
  · next hs =>
    refine .inr ⟨hs, ?_⟩
    cases hp : loadRange (decBufSize s.config) s.dec.buf 0 s.dec.len.toNat with
    | error r => simp [hp] at h
    | ok p =>
      refine ⟨p, rfl, ?_⟩
      cases hd : decodeInbound p with
      | error r => exact .inl ⟨r, rfl, by simpa [hp, hd] using h.symm⟩
      | ok i => exact .inr ⟨i, rfl, by simpa [hp, hd] using h⟩
  · next hs => exact .inl ⟨hs, by simpa using h.symm⟩

/-- A poll of the source: one of its three answers. -/
theorem decPoll_cases {onReady : Byte → State → Host.Outcome State Fault Refusal} {s t : State}
    (h : decPoll onReady s = .next t) :
    (sourceAnswer s = .notReady ∧ t = sourcePolled s) ∨
    (∃ e, sourceAnswer s = .error e ∧ t = raise (.dec (.other e)) (sourcePolled s)) ∨
    (∃ b, sourceAnswer s = .ready b ∧ onReady b (sourceGave (sourcePolled s)) = .next t) := by
  simp only [decPoll] at h
  split at h
  · next ha => exact .inl ⟨ha, by simpa using h.symm⟩
  · next e ha => exact .inr (.inl ⟨e, ha, by simpa using h.symm⟩)
  · next b ha => exact .inr (.inr ⟨b, ha, h⟩)

/-- A body byte is stored, and the last one completes the frame. -/
theorem readyBody_cases {b : Byte} {s t : State} (h : readyBody b s = .next t) :
    s.dec.idx.toNat < s.config.cap ∧
    ((bodyComplete (bodyStored b (s.dec.buf.write s.dec.idx.toNat b) s).dec = true ∧
      completeFrame (bodyStored b (s.dec.buf.write s.dec.idx.toNat b) s) = .next t) ∨
     (bodyComplete (bodyStored b (s.dec.buf.write s.dec.idx.toNat b) s).dec = false ∧
      t = bodyStored b (s.dec.buf.write s.dec.idx.toNat b) s)) := by
  unfold readyBody at h
  split at h
  · cases h
  · next buf hb =>
    obtain ⟨hlt, rfl⟩ := store_cases hb
    refine ⟨hlt, ?_⟩
    simp only at h
    split at h
    · next hc => exact .inl ⟨hc, h⟩
    · next hc => exact .inr ⟨by simpa using hc, by simpa using h.symm⟩

/-- A step of DEC: it waits, accepts READ, or polls in one of the four states. -/
theorem decStep_cases {s t : State} (h : decStep s = .next t) :
    (s.dec.state = .idle ∧ s.dec.requests = 0 ∧ t = s) ∨
    (s.dec.state = .idle ∧ 0 < s.dec.requests ∧ t = startReading (popRead s)) ∨
    (s.dec.state = .start ∧ decPoll readyStart s = .next t) ∨
    (s.dec.state = .lenHi ∧ decPoll readyLenHi s = .next t) ∨
    (s.dec.state = .lenLo ∧ decPoll readyLenLo s = .next t) ∨
    (s.dec.state = .body ∧ decPoll readyBody s = .next t) := by
  unfold decStep at h
  split at h
  · next hs =>
    split at h
    · next hr => exact .inl ⟨hs, hr, by simpa using h.symm⟩
    · next n hr =>
      refine .inr (.inl ⟨hs, by omega, ?_⟩)
      simp only [exec, execRead, popRead_dec, hs] at h
      simpa using h.symm
  · next hs => exact .inr (.inr (.inl ⟨hs, h⟩))
  · next hs => exact .inr (.inr (.inr (.inl ⟨hs, h⟩)))
  · next hs => exact .inr (.inr (.inr (.inr (.inl ⟨hs, h⟩))))
  · next hs => exact .inr (.inr (.inr (.inr (.inr ⟨hs, h⟩))))

/-! ### The machine -/

/-- A step: ENC moves, DEC moves, or the reset input arrives. -/
theorem step_cases {s t : State} (h : step s = .next t) :
    (nextTurn s = .enc ∧ encStep (popTurn s) = .next t) ∨
    (nextTurn s = .dec ∧ decStep (popTurn s) = .next t) ∨
    (nextTurn s = .reset ∧ t = applyReset (popTurn s)) := by
  unfold step at h
  split at h
  · next hn => exact .inl ⟨hn, h⟩
  · next hn => exact .inr (.inl ⟨hn, h⟩)
  · next hn => exact .inr (.inr ⟨hn, by simpa using h.symm⟩)

end Sys2Proof.Machine
end

