-- ==== Sys2Proof/Laws/Runs.lean ====
section
/-! SUPPORT. Runs of several steps, what a step of one engine leaves alone, the bytes a buffer holds,
and the completion of a frame in the terms of the spec's parser. -/

namespace Sys2Proof.Machine

/-! ### Runs -/

theorem run_succ (s : State) (n : Nat) : Sys2Proof.core.run (n + 1) s =
    match step s with
    | .next u => Sys2Proof.core.run n u
    | .fault r => .fault r
    | .refused r => .refused r := by
  cases h : step s <;> simp [Host.Core.run, Sys2Proof.core, h]

/-- A run goes on from where its first part ends. -/
theorem run_add {m : Nat} (n : Nat) {s u : State} (h : Sys2Proof.core.run m s = .next u) :
    Sys2Proof.core.run (m + n) s = Sys2Proof.core.run n u := by
  induction m generalizing s with
  | zero => cases h; simp
  | succ m ih =>
    rw [show m + 1 + n = (m + n) + 1 by omega, run_succ]
    rw [run_succ] at h
    cases hs : step s with
    | next v => rw [hs] at h; exact ih h
    | fault r => rw [hs] at h; cases h
    | refused r => rw [hs] at h; cases h

/-! ### Frames of the engines' steps -/

theorem encStep_frame {s t : State} (h : encStep s = .next t) :
    t.dec = s.dec ∧ t.config = s.config ∧ t.schedule = s.schedule := by
  rcases encStep_cases h with ⟨_, h⟩ | ⟨_, _, rfl⟩ | ⟨f, r, _, _, h⟩
  · obtain ⟨b, _, ⟨_, rfl⟩ | ⟨e, _, rfl⟩ | ⟨_, _, rfl⟩ | ⟨_, _, rfl⟩⟩ := encPoll_cases h <;> simp
  · simp
  · obtain ⟨_, ⟨_, rfl⟩ | ⟨_, buf, _, rfl⟩⟩ := acceptOutbound_cases h <;> simp

theorem completeFrame_frame {s t : State} (h : completeFrame s = .next t) :
    t.enc = s.enc ∧ t.config = s.config ∧ t.schedule = s.schedule := by
  rcases completeFrame_cases h with ⟨_, rfl⟩ | ⟨_, p, _, ⟨r, _, rfl⟩ | ⟨i, hi, h⟩⟩
  · simp
  · simp
  · rcases exec_inbound (decodeInbound_isInbound hi) s with ⟨f, h2⟩ | ⟨e, h2⟩ <;>
      rw [h2] at h <;> cases h <;> simp

theorem decStep_frame {s t : State} (h : decStep s = .next t) :
    t.enc = s.enc ∧ t.config = s.config ∧ t.schedule = s.schedule := by
  rcases decStep_cases h with ⟨_, _, rfl⟩ | ⟨_, _, rfl⟩ | ⟨_, h⟩ | ⟨_, h⟩ | ⟨_, h⟩ | ⟨_, h⟩
  · simp
  · simp
  all_goals rcases decPoll_cases h with ⟨_, rfl⟩ | ⟨e, _, rfl⟩ | ⟨b, _, h⟩
  any_goals simp
  · unfold readyStart at h; split at h <;> cases h <;> simp
  · simp only [readyLenHi] at h; cases h; simp
  · simp only [readyLenLo] at h; split at h <;> cases h <;> simp
  · obtain ⟨_, ⟨_, h⟩ | ⟨_, rfl⟩⟩ := readyBody_cases h
    · simpa using completeFrame_frame h
    · simp

/-! ### What a buffer holds -/

theorem Holds.snoc {m : Memory} {bs : List Byte} (h : Holds m bs) (b : Byte) :
    Holds (m.write bs.length b) (bs ++ [b]) := by
  intro i hi
  simp only [List.length_append, List.length_singleton] at hi
  by_cases he : i = bs.length
  · subst he; simp [read_write_same]
  · rw [read_write_other _ _ he, h i (by omega), List.getElem?_append_left (by omega)]

theorem Holds.write_above {m : Memory} {bs : List Byte} (h : Holds m bs) (b : Byte) {a : Nat}
    (ha : bs.length ≤ a) : Holds (m.write a b) bs := by
  intro i hi
  rw [read_write_other _ _ (by omega), h i hi]

theorem Holds.loadRange_eq {n : Nat} {m : Memory} {bs : List Byte} (h : Holds m bs)
    (hn : bs.length ≤ n) : loadRange n m 0 bs.length = .ok bs :=
  loadRange_ok bs 0 (by omega) fun i hi => by simpa using h i hi

/-- Writes one after another keep the canonical form (`placeArrival`). -/
theorem foldl_write_wf (cs : List (Byte × Nat)) {m : Memory} (h : m.wf) :
    (cs.foldl (fun m c => m.write c.2 c.1) m).wf := by
  induction cs generalizing m with
  | nil => exact h
  | cons c cs ih => exact ih (write_wf _ _ h)

/-! ### Executing a decoded payload -/

/-- The instruction a payload decodes to does what `parse` says of that payload. -/
theorem exec_decoded {p : List Byte} {i : Instr} (h : decodeInbound p = .ok i) (s : State) :
    exec i s = match parse s.config p with
      | .ok f => .next (deliver f s)
      | .error e => .next (raise (.dec e) s) := by
  rcases p with _ | ⟨tag, rest⟩
  · cases h
  simp only [decodeInbound] at h
  by_cases h1 : tag = tagRxPacket
  · rw [if_pos h1] at h; cases h; subst h1
    rcases decodeRxPacket_cases rest with
      ⟨hl, hd⟩ | ⟨m0, m1, m2, m3, m4, m5, m6, m7, hh, l, o, data, rfl, hd⟩
    · rw [hd]
      simp [exec, execRxpacket, parse, tagRxPacket, parseRxPacket,
        show rest.length < 11 by omega]
    · rw [hd]
      simp [exec, execRxpacket, parse, tagRxPacket, parseRxPacket,
        show ¬ (data.length + 1 + 1 + 1 + 1 + 1 + 1 + 1 + 1 + 1 + 1 + 1 < 11) by omega]
  rw [if_neg h1] at h
  by_cases h2 : tag = tagTxStatus
  · rw [if_pos h2] at h; cases h; subst h2
    rcases decodeTxStatus_cases rest with ⟨hl, hd⟩ | ⟨f, hh, l, t, st, ds, ig, rfl, hd⟩
    · rw [hd]
      simp [exec, execTxstatus, parse, tagTxStatus, parseTxStatus,
        show rest.length + 1 < 7 by omega]
    · rw [hd]
      simp only [exec, execTxstatus, parse, tagTxStatus, parseTxStatus]
      simp
      rw [if_neg (by omega)]
      all_goals (cases checkTxStatus s.config _ <;> rfl)
  rw [if_neg h2] at h
  repeat' split at h
  all_goals cases h
  all_goals next hq => subst hq; rfl

theorem parse_rejected {c : Config} {p : List Byte} {r : InboundReject}
    (h : decodeInbound p = .error r) : parse c p = .error (rejectError r) := by
  rcases p with _ | ⟨tag, rest⟩
  · cases h; rfl
  simp only [decodeInbound] at h
  repeat' split at h
  all_goals cases h
  next h1 h2 _ _ _ _ =>
    simp only [parse]
    rw [if_neg (show ¬ tag = 144#8 from h1), if_neg (show ¬ tag = 139#8 from h2)]
    rfl

/-- Completion on the payload bytes that `DEC_BUF` holds. -/
theorem completeFrame_eq {s : State} {p : List Byte} (hp : Holds s.dec.buf p)
    (hl : p.length = s.dec.len.toNat) (hc : p.length ≤ s.config.cap) :
    completeFrame s = match readOutcome s.config p s.dec.sum with
      | .delivered f => .next (deliver f s)
      | .failed e => .next (raise (.dec e) s) := by
  have hr := Holds.loadRange_eq hp (n := decBufSize s.config) hc
  unfold completeFrame readOutcome checksumValid fetchInbound
  rw [← hl, hr]
  by_cases hs : s.dec.sum = 0xFF#8
  · simp only [hs, decide_true, if_true]
    cases hd : decodeInbound p with
    | error r => simp [parse_rejected hd, outcomeOf]
    | ok i =>
      simp only [exec_decoded hd]
      cases parse s.config p <;> simp [outcomeOf]
  · simp [hs]

/-! ### Body bytes -/

/-- `dec_idx` does not wrap in the body (R27). -/
theorem bodyStored_idx {s : State} (b : Byte) (m : Memory)
    (hi : s.dec.idx.toNat ≤ s.dec.len.toNat) :
    (bodyStored b m s).dec.idx.toNat = s.dec.idx.toNat + 1 := by
  have := s.dec.len.isLt
  show (s.dec.idx + 1).toNat = _
  simp [BitVec.toNat_add]
  omega

/-- A body byte that is not the last is stored, and that is all. -/
theorem readyBody_more {s : State} (b : Byte) (hi : s.dec.idx.toNat < s.dec.len.toNat)
    (hc : s.dec.len.toNat + 1 ≤ s.config.cap) :
    readyBody b s = .next (bodyStored b (s.dec.buf.write s.dec.idx.toNat b) s) := by
  have hx := bodyStored_idx b (s.dec.buf.write s.dec.idx.toNat b) (Nat.le_of_lt hi)
  have hl : (bodyStored b (s.dec.buf.write s.dec.idx.toNat b) s).dec.len = s.dec.len := rfl
  unfold readyBody
  rw [store_ok b (show s.dec.idx.toNat < decBufSize s.config by unfold decBufSize; omega)]
  refine if_neg ?_
  simp only [bodyComplete, decide_eq_true_eq, hl, hx]
  omega

/-- The last body byte is stored and completes the frame. -/
theorem readyBody_last {s : State} (b : Byte) (hi : s.dec.idx.toNat = s.dec.len.toNat)
    (hc : s.dec.len.toNat + 1 ≤ s.config.cap) :
    readyBody b s = completeFrame (bodyStored b (s.dec.buf.write s.dec.idx.toNat b) s) := by
  have hx := bodyStored_idx b (s.dec.buf.write s.dec.idx.toNat b) (Nat.le_of_eq hi)
  have hl : (bodyStored b (s.dec.buf.write s.dec.idx.toNat b) s).dec.len = s.dec.len := rfl
  unfold readyBody
  rw [store_ok b (show s.dec.idx.toNat < decBufSize s.config by unfold decBufSize; omega)]
  refine if_pos ?_
  simp only [bodyComplete, decide_eq_true_eq, hl, hx]
  omega

end Sys2Proof.Machine
end

