-- ==== Sys2Proof/Laws/Inputs.lean ====
section
/-! SUPPORT. Laws of the words in which the statements speak of inputs: other transport errors in a
state, and one READ on the transport's answers. -/

namespace Sys2Proof.Machine

/-! ### Other transport errors -/

section
variable (f : SinkErr → SinkErr) (g : SourceErr → SourceErr) (s : State)

@[simp] theorem mapErr_config : (s.mapErr f g).config = s.config := rfl
@[simp] theorem mapErr_enc : (s.mapErr f g).enc =
    { s.enc with answers := s.enc.answers.map (SinkAnswer.mapErr f),
                 out := s.enc.out.map (EncOutcome.mapErr f) } := rfl
@[simp] theorem mapErr_dec : (s.mapErr f g).dec =
    { s.dec with answers := s.dec.answers.map (SourceAnswer.mapErr g),
                 out := s.dec.out.map (DecOutcome.mapErr g) } := rfl
@[simp] theorem mapErr_schedule : (s.mapErr f g).schedule = s.schedule := rfl

theorem sinkAnswer_mapErr : sinkAnswer (s.mapErr f g) = (sinkAnswer s).mapErr f := by
  unfold sinkAnswer
  cases h : s.enc.answers <;> simp [h, SinkAnswer.mapErr]

theorem sourceAnswer_mapErr : sourceAnswer (s.mapErr f g) = (sourceAnswer s).mapErr g := by
  unfold sourceAnswer
  cases h : s.dec.answers <;> simp [h, SourceAnswer.mapErr]

theorem sinkPolled_mapErr : sinkPolled (s.mapErr f g) = (sinkPolled s).mapErr f g := by
  simp [sinkPolled, State.mapErr, List.map_tail]

theorem sourcePolled_mapErr : sourcePolled (s.mapErr f g) = (sourcePolled s).mapErr f g := by
  simp [sourcePolled, State.mapErr, List.map_tail]

/-- Who moves does not depend on the errors. -/
theorem nextTurn_mapErr : nextTurn (s.mapErr f g) = nextTurn s := by
  have h : encCanMove (s.mapErr f g) = encCanMove s := by simp [encCanMove]
  simp only [nextTurn, h, mapErr_schedule]

end

/-! ### One READ on the transport's answers -/

/-- NotReady answers alone end no READ. -/
theorem awaitByte_notReady {goOn : Byte → List SourceAnswer → Option ReadEnd}
    {answers : List SourceAnswer} (h : ∀ a ∈ answers, a = .notReady) :
    awaitByte goOn answers = none := by
  induction answers with
  | nil => rfl
  | cons a answers ih =>
    obtain rfl := h a (by simp)
    exact ih fun a ha => h a (by simp [ha])

/-- One more answer than what goes on needs is enough. -/
theorem awaitByte_ends {goOn : Byte → List SourceAnswer → Option ReadEnd} {n : Nat}
    (h : ∀ b answers, n ≤ List.countP (· ≠ .notReady) answers → (goOn b answers).isSome)
    (answers : List SourceAnswer) (hn : n + 1 ≤ List.countP (· ≠ .notReady) answers) :
    (awaitByte goOn answers).isSome := by
  induction answers with
  | nil => simp at hn
  | cons a answers ih =>
    cases a with
    | notReady => exact ih (by simpa using hn)
    | error e => rfl
    | ready b =>
      have hk := h b answers (by simp at hn ⊢; omega)
      simp only [awaitByte]
      cases hq : goOn b answers with
      | none => simp [hq] at hk
      | some r => rfl

end Sys2Proof.Machine
end

