-- ==== Sys2Proof/Laws/PerInstr.lean ====
section
/-! SUPPORT. Statements that hold of every instruction, one lemma for each constructor of `Instr`. -/

namespace Sys2Proof.Laws

/-- The frame type byte of the opcode table's row (R2, R94); the two commands have no opcode bits. -/
def tagByte : Instr → Option Byte
  | .encode _       => none
  | .read           => none
  | .txrequest _    => some 0x10
  | .txstatus _     => some 0x8B
  | .rxpacket _     => some 0x90
  | .atresp _       => some 0x88
  | .modemstatus _  => some 0x8A
  | .remoteatresp _ => some 0x97

/-- `payload[0]` of what arrives at a port, where there is a payload (R83). -/
def firstByte : Arrival → Option Byte
  | .encodeCommand _  => none
  | .readCommand      => none
  | .outbound payload => payload.head?
  | .inbound payload  => payload.head?

/-- `payload[0]` of an encoded instruction is its row's match value. -/
def TagByte.Statement (i : Instr) : Prop := firstByte (encode i) = tagByte i

theorem TagByte.encode (frame : Outbound) : TagByte.Statement (.encode frame) := rfl

theorem TagByte.read : TagByte.Statement .read := rfl

theorem TagByte.txrequest (form : TxRequestForm) : TagByte.Statement (.txrequest form) := by
  cases form <;> rfl

theorem TagByte.txstatus (form : TxStatusForm) : TagByte.Statement (.txstatus form) := rfl

theorem TagByte.rxpacket (form : RxPacketForm) : TagByte.Statement (.rxpacket form) := rfl

theorem TagByte.atresp (rest : List Byte) : TagByte.Statement (.atresp rest) := rfl

theorem TagByte.modemstatus (rest : List Byte) : TagByte.Statement (.modemstatus rest) := rfl

theorem TagByte.remoteatresp (rest : List Byte) : TagByte.Statement (.remoteatresp rest) := rfl

end Sys2Proof.Laws
end

