-- ==== Sys2Proof/Tests/Slice0.lean ====
section
/-! SUPPORT. Tests: ill-formed terms are refused, words written out from the spec decode, one or two
steps for each instruction with the values of 95_test_vectors.md, and a witness for the hypotheses of
every statement. -/

namespace Sys2Proof.Tests

open Sys2Proof.Machine

/-! ### Helpers -/

/-- The outcome is a next state that passes the check. -/
def nextWith (o : Host.Outcome State Fault Refusal) (check : State → Bool) : Bool :=
  match o with
  | .next t => check t
  | .fault _ => false
  | .refused _ => false

/-- The state after a step that answers one. -/
def after (s : State) : State :=
  match step s with
  | .next t => t
  | .fault _ => s
  | .refused _ => s

/-- The reset state with chosen inputs. -/
def start (frames : List TxRequest) (reads : Nat) (sink : List SinkAnswer)
    (source : List SourceAnswer) (order : List Turn) : State :=
  State.reset.withInputs frames reads sink source order

/-- The reset state with DEC in a chosen sequencer state. -/
def decAt (d : DecSeq) (source : List SourceAnswer) (order : List Turn) : State :=
  gotoDec d (start [] 0 [] source order)

/-- The reset state with the inbound payload `p` received, and the byte `c` to come. -/
def bodyDone (p : List Byte) (c : Byte) : State :=
  let s := placeArrival (.inbound p) State.reset
  { s with dec := { s.dec with answers := [.ready c] } }

/-- The one error of the sink that has a name. -/
def sinkErr : SinkErr := ⟨0, .inl rfl⟩

/-- The one error of the source that has a name. -/
def sourceErr : SourceErr := ⟨0, .inl rfl⟩

/-- The operand of V1. -/
def v1 : TxRequest where
  frameId := 0x01
  destMac := ⟨0x0013A200, 0x400A0127⟩
  destAddr := .unknown
  bcRadius := 0x00
  options := TxOptions.extendedTimeout
  data := [0x54, 0x78, 0x32, 0x43, 0x6F, 0x6F, 0x72, 0x64]

/-- The operand of V14, with `data` given (V18 to V20 for data of 241, 242 and 243 bytes). -/
def zeroFrame (data : List Byte) : TxRequest where
  frameId := 0x00
  destMac := .coordinator
  destAddr := .coordinator
  bcRadius := 0x00
  options := 0x00
  data := data

/-- The payload of V28. -/
def p28 : List Byte :=
  [0x90, 0x00, 0x13, 0xA2, 0x00, 0x40, 0x52, 0x2B, 0xAA, 0x7D, 0x84, 0x01, 0x52, 0x78, 0x44, 0x61,
    0x74, 0x61]

/-- The value of V28. -/
def r28 : RxPacket where
  sourceMac := ⟨0x0013A200, 0x40522BAA⟩
  sourceAddr := ⟨0x7D, 0x84⟩
  options := 0x01
  data := [0x52, 0x78, 0x44, 0x61, 0x74, 0x61]

/-- The value of V2. -/
def t2 : TransmitStatus where
  frameId := 0x01
  destAddr := ⟨0x7D, 0x84⟩
  txrCount := 0x00
  status := 0x00
  discoStatus := 0x01

/-! ### WellFormed refuses -/

theorem test_wf_txrequest_outbound :
    (Instr.txrequest (.outbound (zeroFrame (List.replicate 65521 0)))).wf = true ∧
    (Instr.txrequest (.outbound (zeroFrame (List.replicate 65522 0)))).wf = false := by
  simp only [Instr.wf, TxRequestForm.wf, payloadFits, zeroFrame, List.length_replicate]
  decide

theorem test_wf_txrequest_inbound :
    (Instr.txrequest (.inbound (List.replicate 65534 0))).wf = true ∧
    (Instr.txrequest (.inbound (List.replicate 65535 0))).wf = false := by
  simp only [Instr.wf, TxRequestForm.wf, payloadFits, List.length_replicate]
  decide

theorem test_wf_rxpacket :
    (Instr.rxpacket (.complete .coordinator .coordinator 0 (List.replicate 65523 0))).wf = true ∧
    (Instr.rxpacket (.complete .coordinator .coordinator 0 (List.replicate 65524 0))).wf = false ∧
    (Instr.rxpacket (.short (List.replicate 10 0))).wf = true ∧
    (Instr.rxpacket (.short (List.replicate 11 0))).wf = false := by
  simp only [Instr.wf, RxPacketForm.wf, payloadFits, List.length_replicate]
  decide

theorem test_wf_txstatus :
    (Instr.txstatus (.complete 0 .coordinator 0 0 0 (List.replicate 65528 0))).wf = true ∧
    (Instr.txstatus (.complete 0 .coordinator 0 0 0 (List.replicate 65529 0))).wf = false ∧
    (Instr.txstatus (.short (List.replicate 5 0))).wf = true ∧
    (Instr.txstatus (.short (List.replicate 6 0))).wf = false := by
  simp only [Instr.wf, TxStatusForm.wf, payloadFits, List.length_replicate]
  decide

theorem test_wf_reserved :
    (Instr.atresp (List.replicate 65535 0)).wf = false ∧
    (Instr.modemstatus (List.replicate 65535 0)).wf = false ∧
    (Instr.remoteatresp (List.replicate 65535 0)).wf = false := by
  simp only [Instr.wf, payloadFits, List.length_replicate]
  decide

theorem test_wf_config :
    Config.default.wf ∧ ¬ ({ Config.default with cap := 0 } : Config).wf ∧
    ¬ ({ Config.default with cap := 65536 } : Config).wf ∧
    ¬ ({ Config.default with txStatusKnown := [0x00] } : Config).wf ∧
    ¬ ({ Config.default with discoKnown := [0x00] } : Config).wf := by
  decide

/-! ### Words written out from the spec -/

/-- R90, V1. -/
theorem test_decode_txrequest :
    decode (.outbound [0x10, 0x01, 0x00, 0x13, 0xA2, 0x00, 0x40, 0x0A, 0x01, 0x27, 0xFF, 0xFE, 0x00,
      0x40, 0x54, 0x78, 0x32, 0x43, 0x6F, 0x6F, 0x72, 0x64]) =
      .ok (.txrequest (.outbound v1)) := by rfl

/-- R91, V28. -/
theorem test_decode_rxpacket :
    decode (.inbound p28) =
      .ok (.rxpacket (.complete r28.sourceMac r28.sourceAddr 0x01 r28.data)) := by rfl

/-- R92, V35: the trailing bytes are kept apart. -/
theorem test_decode_txstatus :
    decode (.inbound [0x8B, 0x01, 0x7D, 0x84, 0x00, 0x00, 0x01, 0xAA, 0xBB]) =
      .ok (.txstatus (.complete 0x01 ⟨0x7D, 0x84⟩ 0x00 0x00 0x01 [0xAA, 0xBB])) := by rfl

/-- R94: 0x88, 0x8A, 0x97, and the inbound 0x10 of V39. -/
theorem test_decode_reserved :
    decode (.inbound [0x88]) = .ok (.atresp []) ∧
    decode (.inbound [0x8A]) = .ok (.modemstatus []) ∧
    decode (.inbound [0x97]) = .ok (.remoteatresp []) ∧
    decode (.inbound [0x10]) = .ok (.txrequest (.inbound [])) := by
  exact ⟨rfl, rfl, rfl, rfl⟩

/-- D1: the commands, by port. -/
theorem test_decode_commands :
    decode (.encodeCommand v1) = .ok (.encode v1) ∧ decode .readCommand = .ok .read :=
  ⟨rfl, rfl⟩

/-- V38, R161, R95: refused by name. -/
theorem test_decode_refuses :
    decode (.inbound [0xFF]) = .error (.inbound (.unknownTag 0xFF)) ∧
    decode (.inbound []) = .error (.inbound .emptyPayload) ∧
    decode (.outbound [0x10, 0x01]) = .error (.outbound .shortTxRequest) ∧
    decode (.outbound [0x90]) = .error (.outbound (.notOutbound 0x90)) :=
  ⟨rfl, rfl, rfl, rfl⟩

/-- The words of the opcode table. -/
theorem test_decodeTableWord :
    decodeTableWord 8 0x90 = some (.rxpacket (.complete .coordinator .coordinator 0 [])) ∧
    decodeTableWord 8 0x8B = some (.txstatus (.complete 0 .coordinator 0 0 0 [])) ∧
    decodeTableWord 8 0x10 = some (.txrequest (.outbound (zeroFrame []))) ∧
    decodeTableWord 8 0x88 = some (.atresp []) ∧
    decodeTableWord 8 0x8A = some (.modemstatus []) ∧
    decodeTableWord 8 0x97 = some (.remoteatresp []) ∧
    decodeTableWord 0 0 = some .read ∧ decodeTableWord 8 0x00 = none := by
  decide

/-- The step after `withFetchWord` runs the word's instruction, first after reset. -/
theorem test_withFetchWord :
    nextWith (step (State.reset.withFetchWord 8 0x97))
      (fun t => t.dec.out == some (.failed (.unsupported 0x97))) = true ∧
    nextWith (step (State.reset.withFetchWord 8 0x10)) (fun t => t.enc.total == 18) = true ∧
    nextWith (step (State.reset.withFetchWord 0 0)) (fun t => t.dec.state == .start) = true ∧
    nextWith (step (State.reset.withFetchWord 8 0x8B))
      (fun t => t.dec.frame == some (.transmitStatus ⟨0, .coordinator, 0, 0, 0⟩)) = true := by
  decide

/-! ### Values -/

/-- V10. -/
theorem test_ser64 :
    ser64 ⟨0x01020304, 0x05060708⟩ = [0x01, 0x02, 0x03, 0x04, 0x05, 0x06, 0x07, 0x08] := by decide

/-- V12. -/
theorem test_parRxOpt :
    [0x00, 0x01, 0x02, 0x20, 0x23, 0xC3, 0xFF, 0xDC, 0x7E, 0x40].map parRxOpt =
      [0x00, 0x01, 0x02, 0x20, 0x23, 0x03, 0x23, 0x00, 0x22, 0x00] := by decide

/-- V1, V15, V17. -/
theorem test_wire :
    wire v1 = [0x7E, 0x00, 0x16, 0x10, 0x01, 0x00, 0x13, 0xA2, 0x00, 0x40, 0x0A, 0x01, 0x27, 0xFF,
      0xFE, 0x00, 0x40, 0x54, 0x78, 0x32, 0x43, 0x6F, 0x6F, 0x72, 0x64, 0x95] ∧
    wire ⟨0xFF, .broadcast, .unknown, 0xFF, 0xFF, [0x7E, 0x7D, 0x11, 0x13]⟩ =
      [0x7E, 0x00, 0x12, 0x10, 0xFF, 0x00, 0x00, 0x00, 0x00, 0x00, 0x00, 0xFF, 0xFF, 0xFF, 0xFE,
        0xFF, 0xFF, 0x7E, 0x7D, 0x11, 0x13, 0xD8] ∧
    wire { zeroFrame [] with frameId := 0xF0 } =
      [0x7E, 0x00, 0x0E, 0x10, 0xF0, 0x00, 0x00, 0x00, 0x00, 0x00, 0x00, 0x00, 0x00, 0x00, 0x00,
        0x00, 0x00, 0xFF] := by decide

/-! ### Single steps -/

/-- V1: the staged frame and the registers. -/
theorem test_encode_stages :
    nextWith (exec (.encode v1) State.reset) (fun t =>
      t.enc.state == .send && t.enc.len == 22 && t.enc.total == 26 && t.enc.idx == 0 &&
      t.enc.sum == 0x6A && t.enc.buf.read 25 == some 0x95 && t.enc.out == none) = true := by
  decide

/-- V20 with `CAP = 14`. -/
theorem test_encode_overflow :
    nextWith (exec (.encode (zeroFrame [0xAA])) (.resetWith { Config.default with cap := 14 }))
      (fun t => t.enc.out == some (.failed .overflow) && t.enc.buf == []) = true := by
  decide

/-- V14. -/
theorem test_txrequest_stages :
    nextWith (exec (.txrequest (.outbound (zeroFrame []))) State.reset) (fun t =>
      t.enc.total == 18 && t.enc.sum == 0x10 && t.enc.buf.read 17 == some 0xEF) = true := by
  decide

/-- V39. -/
theorem test_txrequest_inbound :
    nextWith (step (bodyDone [0x10] 0xEF)) (fun t =>
      t.dec.out == some (.failed (.unsupported 0x10)) && t.dec.frame == none) = true := by
  decide

/-- R221: the previous delivery is withdrawn. -/
theorem test_read_withdraws :
    nextWith (exec .read (deliver (.rxPacket r28) State.reset)) (fun t =>
      t.dec.state == .start && t.dec.frame == none && t.dec.out == none) = true := by
  decide

/-- R35: a busy DEC. -/
theorem test_read_busy : exec .read (gotoDec .body State.reset) = .refused .decoderBusy := rfl

/-- V28: fields, registers and the data window. -/
theorem test_rxpacket :
    nextWith (step (bodyDone p28 0x0D)) (fun t =>
      t.dec.out == some (.delivered (.rxPacket r28)) && t.dec.frame == some (.rxPacket r28) &&
      t.dec.idx == 19 && t.dec.sum == 0xFF && t.hostReadData 0 == some 0x52 &&
      t.hostReadData 5 == some 0x61 && t.hostReadData 6 == none) = true := by
  decide

/-- V25: eleven payload bytes. -/
theorem test_rxpacket_short :
    nextWith (step (bodyDone [0x90, 0, 0, 0, 0, 0, 0, 0xFF, 0xFF, 0xFF, 0xFE] 0x74)) (fun t =>
      t.dec.out == some (.failed (.malformed .rxPacketLength)) &&
      t.dec.buf.read 11 == some 0x74) = true := by
  decide

/-- V2. -/
theorem test_txstatus :
    nextWith (step (bodyDone [0x8B, 0x01, 0x7D, 0x84, 0x00, 0x00, 0x01] 0x71)) (fun t =>
      t.dec.out == some (.delivered (.transmitStatus t2)) && t.dec.idx == 8) = true := by
  decide

/-- V33. -/
theorem test_txstatus_both_unknown :
    nextWith (step (bodyDone [0x8B, 0x02, 0x00, 0x00, 0x03, 0x99, 0x07] 0xCF)) (fun t =>
      t.dec.out == some (.failed (.malformed (.txStatusCode 0x99)))) = true := by
  decide

/-- V37. -/
theorem test_reserved :
    nextWith (step (bodyDone [0x88] 0x77)) (fun t =>
      t.dec.out == some (.failed (.unsupported 0x88))) = true ∧
    nextWith (step (bodyDone [0x8A] 0x75)) (fun t =>
      t.dec.out == some (.failed (.unsupported 0x8A))) = true ∧
    nextWith (step (bodyDone [0x97] 0x68)) (fun t =>
      t.dec.out == some (.failed (.unsupported 0x97))) = true := by
  decide

/-- V3: the carried sum. -/
theorem test_badChecksum :
    nextWith (step (bodyDone [0x8B, 0x01, 0x7D, 0x84, 0x00, 0x00, 0x01] 0x70)) (fun t =>
      t.dec.out == some (.failed (.badChecksum 0xFE)) && t.dec.frame == none) = true := by
  decide

/-- V41 with a NotReady answer in it: `NoStart`, one byte consumed, the rest left. -/
theorem test_readOf_noStart :
    readOf .default [.notReady, .ready 0x00, .ready 0x7E] =
      some ⟨.failed .noStart, 1, [.ready 0x7E]⟩ := by decide

/-- V42: `Overflow`, three bytes consumed, and `Other` at the last poll of V37. -/
theorem test_readOf_overflow_other :
    readOf .default [.ready 0x7E, .ready 0x01, .notReady, .ready 0x00, .ready 0x90] =
      some ⟨.failed .overflow, 3, [.ready 0x90]⟩ ∧
    readOf .default [.ready 0x7E, .ready 0x00, .ready 0x01, .ready 0x88, .error sourceErr] =
      some ⟨.failed (.other sourceErr), 4, []⟩ := by decide

/-! ### States that satisfy the invariant -/

theorem reset_memory_wf : State.reset.enc.buf.wf ∧ State.reset.dec.buf.wf := by decide

/-- An idle ENC with an empty buffer satisfies its invariant. -/
theorem idle_encInv (c : Config) {e : Enc} (hs : e.state = .idle) (hb : e.buf = []) :
    EncInv c e where
  bufCanonical := hb ▸ .nil
  bufInRange := by simp [hb]
  sending := by simp [hs]

/-- An idle DEC with an empty buffer and nothing delivered satisfies its invariant. -/
theorem idle_decInv (c : Config) {d : Dec} (hs : d.state = .idle) (hb : d.buf = [])
    (hf : d.frame = none) (ho : d.out = none) : DecInv c d where
  bufCanonical := hb ▸ .nil
  bufInRange := by simp [hb]
  highByte := by simp [hs]
  inBody := by simp [hs]
  active := by simp [hs]
  frameIsOutcome := by simp [hf, ho]
  delivered := by simp [hf]

/-- The reset state with any inputs. -/
theorem start_inv (frames : List TxRequest) (reads : Nat) (sink : List SinkAnswer)
    (source : List SourceAnswer) (order : List Turn) :
    (start frames reads sink source order).Inv where
  config := (by decide : Config.default.wf)
  enc := idle_encInv _ rfl rfl
  dec := idle_decInv _ rfl rfl rfl rfl

/-- ENC about to send the first byte of V14; the sink is about to accept it. -/
def sending : State := after (start [zeroFrame []] 0 [.accepted] [] [.enc, .enc])

theorem sending_inv : sending.Inv where
  config := by decide
  enc := ⟨by decide, by decide, fun _ => ⟨zeroFrame [], by decide, by decide, by decide, by decide,
    by decide, by unfold Holds; decide, by decide, by decide⟩⟩
  dec := idle_decInv _ rfl rfl rfl rfl

/-- DEC about to receive the checksum byte of V28. -/
def receiving : State := bodyDone p28 0x0D

theorem receiving_inv : receiving.Inv where
  config := by decide
  enc := idle_encInv _ rfl rfl
  dec := ⟨by decide, by decide, by decide,
    fun _ => ⟨by decide, by decide, p28, by decide, by unfold Holds; decide, by decide⟩,
    by decide,
    fun f => ⟨fun h => absurd (show none = some f from h) (by simp),
      fun h => absurd (show none = some (DecOutcome.delivered f) from h) (by simp)⟩,
    fun f h => absurd (show none = some f from h) (by simp)⟩

/-- DEC after V28 has been delivered. -/
def delivered : State := after receiving

theorem delivered_frame : delivered.dec.frame = some (.rxPacket r28) := by decide

theorem delivered_inv : delivered.Inv where
  config := by decide
  enc := idle_encInv _ (by decide) (by decide)
  dec := ⟨by decide, by decide, by decide, fun h => absurd h (by decide), by decide, by
      intro f
      rw [delivered_frame, show delivered.dec.out = some (.delivered (.rxPacket r28)) by decide]
      simp, by
      intro f hf
      rw [delivered_frame] at hf
      cases hf
      unfold DeliveredInv
      decide⟩

/-! ### Witnesses: states and operands that meet the hypotheses of a statement, all together -/

theorem witness_DecodeOfEncodeIsIdentity :
    (Instr.encode v1).wf = true ∧ Instr.read.wf = true ∧
    (Instr.txrequest (.outbound v1)).wf = true ∧ (Instr.txrequest (.inbound [])).wf = true ∧
    (Instr.rxpacket (.complete .coordinator .coordinator 0 [])).wf = true ∧
    (Instr.rxpacket (.short [])).wf = true ∧
    (Instr.txstatus (.complete 0 .coordinator 0 0 0 [])).wf = true ∧
    (Instr.txstatus (.short [])).wf = true ∧ (Instr.atresp []).wf = true ∧
    (Instr.modemstatus []).wf = true ∧ (Instr.remoteatresp []).wf = true := by decide

theorem witness_EncodeOfDecodeIsIdentity :
    (∃ i, decodeInbound p28 = .ok i) ∧ (∃ i, decodeInbound [0x8B] = .ok i) ∧
    (∃ i, decodeOutbound (payloadOf v1) = .ok i) := ⟨⟨_, rfl⟩, ⟨_, rfl⟩, ⟨_, rfl⟩⟩

/-- A legal configuration with other tables than the default ones. -/
def otherConfig : Config where
  cap := 1
  txStatusKnown := (List.range 17).map (BitVec.ofNat 8)
  discoKnown := [0x01]

theorem witness_StatusBytesDecodeOrCarryRaw :
    otherConfig.wf ∧ 0x10#8 ∈ otherConfig.txStatusKnown ∧ 0x11#8 ∉ otherConfig.txStatusKnown ∧
    0x01#8 ∈ otherConfig.discoKnown ∧ 0x00#8 ∉ otherConfig.discoKnown := by decide

theorem witness_TxRequestPayloadLayout :
    0 < (payloadOf (zeroFrame [])).length ∧ 13 < (payloadOf (zeroFrame [])).length := by decide

theorem witness_FrameCarriesBigEndianLength :
    ([] : List Byte).length ≤ 65535 ∧ (List.replicate 65535 (0 : Byte)).length ≤ 65535 := by
  simp only [List.length_replicate]
  decide

theorem witness_WellFormedFramesAreTheBuiltOnes : isFrame (wire v1) = true := by decide

theorem witness_ChecksumDetectsAnyOneByteChange :
    [0x8B#8].length ≤ 65535 ∧ (frameAround [0x8B])[3]? ≠ some 0x8A#8 ∧ 4 < [0x8B#8].length + 4 ∧
    (frameAround [0x8B])[4]? ≠ some 0x75#8 := by decide

theorem witness_EncodeStagesTheWireImage :
    State.reset.config.wf ∧ State.reset.enc.state = .idle ∧
    encodedLength (zeroFrame []) ≤ State.reset.config.cap ∧
    encodedLength (zeroFrame (List.replicate 242 0xAA)) ≤ State.reset.config.cap := by
  simp only [encodedLength, zeroFrame, List.length_replicate]
  decide

theorem witness_EncodeOverflowWritesNothing :
    State.reset.enc.state = .idle ∧
    State.reset.config.cap < encodedLength (zeroFrame (List.replicate 243 0xAA)) := by
  simp only [encodedLength, zeroFrame, List.length_replicate]
  decide

/-- Also with `CAP = 14` and 15 payload bytes (V20), for the clause about the overflow. -/
theorem witness_EncodeFrame :
    let small := State.resetWith { Config.default with cap := 14 }
    (∃ t, exec (.encode v1) State.reset = .next t) ∧
    (∃ t, exec (.txrequest (.outbound v1)) State.reset = .next t) ∧
    (∃ t, exec (.encode (zeroFrame [0xAA])) small = .next t) ∧
    small.config.cap < encodedLength (zeroFrame [0xAA]) :=
  ⟨acceptOutbound_next v1 (s := State.reset) rfl, acceptOutbound_next v1 (s := State.reset) rfl,
    ⟨_, rfl⟩, by decide⟩

theorem witness_CommandsRefusedExactlyWhenBusy :
    exec (.encode v1) sending = .refused .encoderBusy ∧ sending.enc.state ≠ .idle ∧
    exec .read receiving = .refused .decoderBusy ∧ receiving.dec.state ≠ .idle :=
  ⟨rfl, by decide, rfl, by decide⟩

/-- `sending` with the sink's next answer chosen. -/
def sendingWith (a : SinkAnswer) : State :=
  { sending with enc := { sending.enc with answers := [a] } }

theorem witness_SinkNotReadyChangesNothing :
    nextTurn (sendingWith .notReady) = .enc ∧ (sendingWith .notReady).enc.state = .send ∧
    (sendingWith .notReady).enc.idx.toNat < (sendingWith .notReady).config.cap + 4 ∧
    (sendingWith .notReady).sinkOffer = some 0x7E ∧
    sinkAnswer (sendingWith .notReady) = .notReady := by decide

theorem witness_SinkAcceptedSendsOneByte :
    nextTurn sending = .enc ∧ sending.enc.state = .send ∧
    sending.enc.idx.toNat < sending.config.cap + 4 ∧ sending.sinkOffer = some 0x7E ∧
    sinkAnswer sending = .accepted ∧ sending.enc.idx + 1 ≠ sending.enc.total := by decide

/-- ENC about to send the checksum byte of V14. -/
def sendingLast : State := { sending with enc := { sending.enc with idx := 17 } }

theorem witness_SinkAcceptedSendsOneByte_last :
    nextTurn sendingLast = .enc ∧ sendingLast.enc.state = .send ∧
    sendingLast.enc.idx.toNat < sendingLast.config.cap + 4 ∧
    sendingLast.sinkOffer = some 0xEF ∧ sinkAnswer sendingLast = .accepted ∧
    sendingLast.enc.idx + 1 = sendingLast.enc.total := by decide

theorem witness_SinkErrorEndsEncode :
    nextTurn (sendingWith (.error sinkErr)) = .enc ∧ (sendingWith (.error sinkErr)).enc.state = .send ∧
    (sendingWith (.error sinkErr)).enc.idx.toNat < (sendingWith (.error sinkErr)).config.cap + 4 ∧
    (sendingWith (.error sinkErr)).sinkOffer = some 0x7E ∧
    sinkAnswer (sendingWith (.error sinkErr)) = .error sinkErr := by decide

/-- V22: the sink is not ready twice. -/
def emitAnswers : List SinkAnswer := [.notReady, .notReady] ++ List.replicate 18 .accepted

/-- ENCODE of V14 with the answers of V22 to come. -/
def emitStart : State := start [zeroFrame []] 0 (emitAnswers ++ []) [] (List.replicate 21 .enc)

theorem witness_EncodeEmitsExactlyTheFrame :
    emitStart.Inv ∧ emitStart.enc.state = .idle ∧ emitStart.enc.requests = [zeroFrame []] ∧
    encodedLength (zeroFrame []) ≤ emitStart.config.cap ∧
    emitStart.enc.answers = emitAnswers ++ [] ∧
    (∀ a ∈ emitAnswers, a = .accepted ∨ a = .notReady) ∧
    emitAnswers.count .accepted = encodedLength (zeroFrame []) + 4 ∧
    emitAnswers.getLast? = some .accepted ∧
    emitStart.schedule = List.replicate (emitAnswers.length + 1) .enc ++ [] :=
  ⟨start_inv _ _ _ _ _, rfl, rfl, by decide, rfl, by decide, by decide, rfl, rfl⟩

/-- ENCODE of V1 with `k` bytes accepted and an error to come. -/
def errorStart (k : Nat) : State :=
  start [v1] 0 (List.replicate k .accepted ++ [.error sinkErr]) [] (List.replicate (k + 2) .enc)

/-- V21 and V23: five bytes, and none; and the most there can be, one short of the frame. -/
theorem witness_EncodeErrorLeavesAnInitialPart (k : Nat) (hk : k = 5 ∨ k = 0 ∨ k = 25) :
    (errorStart k).Inv ∧ (errorStart k).enc.state = .idle ∧ (errorStart k).enc.requests = [v1] ∧
    encodedLength v1 ≤ (errorStart k).config.cap ∧
    (errorStart k).enc.answers = List.replicate k .accepted ++ .error sinkErr :: [] ∧
    (∀ a ∈ List.replicate k SinkAnswer.accepted, a = .accepted ∨ a = .notReady) ∧
    (List.replicate k SinkAnswer.accepted).count .accepted < encodedLength v1 + 4 ∧
    (errorStart k).schedule =
      List.replicate ((List.replicate k SinkAnswer.accepted).length + 2) .enc ++ [] := by
  refine ⟨start_inv _ _ _ _ _, rfl, rfl, (by decide : encodedLength v1 ≤ 256),
    rfl, by simp, ?_, by simp [errorStart, start, State.withInputs]⟩
  simp only [List.count_replicate_self, encodedLength, v1, List.length_cons, List.length_nil]
  omega

theorem witness_ReadStartsAFreshFrame : delivered.dec.state = .idle := by decide

theorem witness_SourceNotReadyChangesNothing (d : DecSeq) (hd : d ≠ .idle) :
    nextTurn (decAt d [.notReady] [.dec]) = .dec ∧
    (decAt d [.notReady] [.dec]).dec.state ≠ .idle ∧
    sourceAnswer (decAt d [.notReady] [.dec]) = .notReady := ⟨rfl, hd, rfl⟩

theorem witness_SourceErrorEndsRead (d : DecSeq) (hd : d ≠ .idle) :
    nextTurn (decAt d [.error sourceErr] [.dec]) = .dec ∧
    (decAt d [.error sourceErr] [.dec]).dec.state ≠ .idle ∧
    sourceAnswer (decAt d [.error sourceErr] [.dec]) = .error sourceErr := ⟨rfl, hd, rfl⟩

/-- Both clauses: 0x7E, and 0x7D. -/
theorem witness_OnlyTheStartDelimiterStarts (b : Byte) (_ : b = 0x7E ∨ b = 0x7D) :
    nextTurn (decAt .start [.ready b] [.dec]) = .dec ∧
    (decAt .start [.ready b] [.dec]).dec.state = .start ∧
    sourceAnswer (decAt .start [.ready b] [.dec]) = .ready b := ⟨rfl, rfl, rfl⟩

/-- Both clauses at their boundary: `L = 255` and `L = 256` with `CAP = 256` (V42, V43). -/
theorem witness_LengthBytesThenBodyOrOverflow :
    let s := decAt .lenHi [.ready 0x00, .ready 0xFF] [.dec, .dec]
    let u := decAt .lenHi [.ready 0x01, .ready 0x00] [.dec, .dec]
    s.dec.state = .lenHi ∧ (0x00#8).toNat * 256 + (0xFF#8).toNat + 1 ≤ s.config.cap ∧
    u.dec.state = .lenHi ∧ u.config.cap < (0x01#8).toNat * 256 + (0x00#8).toNat + 1 := by decide

theorem witness_BodyByteIsStoredAtItsIndex :
    let s := setDecLen 1 (decAt .body [.ready 0x7E] [.dec])
    nextTurn s = .dec ∧ s.dec.state = .body ∧ sourceAnswer s = .ready 0x7E ∧
    s.dec.idx.toNat < s.dec.len.toNat ∧ s.dec.len.toNat + 1 ≤ s.config.cap := by decide

theorem witness_WrongSumIsBadChecksum :
    let s := bodyDone [0x88] 0x76
    nextTurn s = .dec ∧ s.dec.state = .body ∧ sourceAnswer s = .ready 0x76 ∧
    s.dec.idx.toNat = s.dec.len.toNat ∧ s.dec.len.toNat + 1 ≤ s.config.cap ∧
    s.dec.sum + 0x76 ≠ 0xFF := by decide

/-- R239 with `c = 0xFF` and with `c = 0x00`. -/
theorem witness_EmptyPayloadIsMalformed (c : Byte) (_ : c = 0xFF ∨ c = 0x00) :
    let s := bodyDone [] c
    nextTurn s = .dec ∧ s.dec.state = .body ∧ sourceAnswer s = .ready c ∧ s.dec.len = 0 ∧
    s.dec.idx = 0 ∧ s.dec.sum = 0 ∧ 1 ≤ s.config.cap :=
  ⟨rfl, rfl, rfl, rfl, rfl, rfl, (by decide : 1 ≤ Config.default.cap)⟩

theorem witness_StepRunsTheDecodedInstruction :
    let s := start [v1] 1 [] [] [.enc, .dec]
    let u := start [v1] 1 [] [] [.dec, .enc]
    (nextTurn s = .enc ∧ s.enc.state = .idle ∧ s.enc.requests = [v1]) ∧
    (nextTurn u = .dec ∧ u.dec.state = .idle ∧ 0 < u.dec.requests) := by decide

theorem witness_StepRunsTheDecodedInstruction_body :
    (nextTurn receiving = .dec ∧ receiving.dec.state = .body ∧
      sourceAnswer receiving = .ready 0x0D ∧
      receiving.dec.idx.toNat = receiving.dec.len.toNat ∧
      receiving.dec.len.toNat < receiving.config.cap ∧
      p28.length = receiving.dec.len.toNat ∧ receiving.dec.sum + 0x0D = 0xFF) ∧
    Holds receiving.dec.buf p28 ∧ ∃ i, decodeInbound p28 = .ok i :=
  ⟨by decide, by unfold Holds; decide, _, rfl⟩

/-- Payloads of one byte and of eleven. -/
theorem witness_ShortRxPacketIsMalformed :
    ([] : List Byte).length + 1 ≤ 11 ∧ (List.replicate 10 (0 : Byte)).length + 1 ≤ 11 := by decide

theorem witness_TxStatusDeliversItsFields :
    0x00#8 ∈ State.reset.config.txStatusKnown ∧ 0x01#8 ∈ State.reset.config.discoKnown := by
  decide

/-- V31 and V32. -/
theorem witness_UnknownStatusIsMalformedWithRawByte :
    0x99#8 ∉ State.reset.config.txStatusKnown ∧ 0x00#8 ∈ State.reset.config.txStatusKnown ∧
    0x07#8 ∉ State.reset.config.discoKnown := by decide

/-- Payloads of one byte and of six. -/
theorem witness_ShortTxStatusIsMalformed :
    ([] : List Byte).length + 1 < 7 ∧ (List.replicate 5 (0 : Byte)).length + 1 < 7 := by decide

/-- One tag for each way: rejected, and decoded. -/
theorem witness_EveryOtherTagIsUnsupported :
    (0x91#8 ≠ 0x90#8 ∧ 0x91#8 ≠ 0x8B#8 ∧ decodeInbound [0x91] = .error (.unknownTag 0x91)) ∧
    (0x8A#8 ≠ 0x90#8 ∧ 0x8A#8 ≠ 0x8B#8 ∧ decodeInbound [0x8A] = .ok (.modemstatus [])) :=
  ⟨⟨by decide, by decide, rfl⟩, by decide, by decide, rfl⟩

/-- The step that completes the body `91` with its checksum `6E`. -/
theorem witness_EveryOtherTagIsUnsupported_step :
    let s := bodyDone [0x91] 0x6E
    (nextTurn s = .dec ∧ s.dec.state = .body ∧ sourceAnswer s = .ready 0x6E ∧
      s.dec.idx.toNat = s.dec.len.toNat ∧ s.dec.len.toNat + 1 ≤ s.config.cap ∧
      ([] : List Byte).length + 1 = s.dec.len.toNat ∧ s.dec.sum + 0x6E = 0xFF) ∧
    Holds s.dec.buf [0x91] :=
  ⟨by decide, by unfold Holds; decide⟩

theorem witness_InboundFrame :
    isInbound (.rxpacket (.short [])) = true ∧
    (∃ t, exec (.rxpacket (.short [])) State.reset = .next t) ∧
    isInbound (.rxpacket (.complete .coordinator .coordinator 0 [])) = true ∧
    (∃ t, exec (.rxpacket (.complete .coordinator .coordinator 0 [])) State.reset = .next t) :=
  ⟨rfl, ⟨_, rfl⟩, rfl, ⟨_, rfl⟩⟩

theorem witness_CompletionRefinesTheSpecParser :
    receiving.Inv ∧ nextTurn receiving = .dec ∧ receiving.dec.state = .body ∧
    sourceAnswer receiving = .ready 0x0D ∧ receiving.dec.idx.toNat = receiving.dec.len.toNat :=
  ⟨receiving_inv, by decide⟩

/-- The stream of V37 with NotReady answers in it (V4). -/
def readAnswers : List SourceAnswer :=
  [.ready 0x7E, .notReady, .ready 0x00, .ready 0x01, .notReady, .notReady, .ready 0x88, .notReady,
    .ready 0x77]

/-- READ with that stream to come. -/
def readStart : State := start [] 1 [] (readAnswers ++ []) (List.replicate 10 .dec)

theorem witness_ReadOfOneFrame :
    readStart.Inv ∧ readStart.dec.state = .idle ∧ readStart.dec.requests = 0 + 1 ∧
    [0x88#8].length + 1 ≤ readStart.config.cap ∧ readStart.dec.answers = readAnswers ++ [] ∧
    readyBytes readAnswers = [0x7E, hi8 (BitVec.ofNat 16 [0x88#8].length),
      lo8 (BitVec.ofNat 16 [0x88#8].length)] ++ [0x88] ++ [0x77] ∧
    readAnswers.getLast? = some (.ready 0x77) ∧
    readStart.schedule = List.replicate (readAnswers.length + 1) .dec ++ [] ∧
    (∀ a ∈ readAnswers, a = .notReady ∨ ∃ b, a = .ready b) :=
  ⟨start_inv _ _ _ _ _, rfl, rfl, by decide, rfl, by decide, rfl, rfl, by simp [readAnswers]⟩

/-- READ with V14 looped back. -/
def loopStart : State :=
  start [] 1 [] ((wire (zeroFrame [])).map .ready ++ [])
    (List.replicate ((wire (zeroFrame [])).length + 1) .dec)

theorem witness_LoopBackIsUnsupported :
    loopStart.Inv ∧ loopStart.dec.state = .idle ∧ loopStart.dec.requests = 0 + 1 ∧
    encodedLength (zeroFrame []) + 1 ≤ loopStart.config.cap ∧
    loopStart.dec.answers = (wire (zeroFrame [])).map .ready ++ [] ∧
    loopStart.schedule = List.replicate ((wire (zeroFrame [])).length + 1) .dec ++ [] :=
  ⟨start_inv _ _ _ _ _, rfl, rfl, by decide, rfl, (List.append_nil _).symm⟩

/-- Legal configurations at both ends of the range of `CAP` (R7). -/
theorem witness_InvariantHoldsAtReset_and_NoInputStopsTheMachine :
    otherConfig.wf ∧ ({ Config.default with cap := 65535 } : Config).wf := by decide

/-- A step of each engine, in the middle of its command. -/
theorem witness_EveryStepKeepsTheInvariant :
    (sending.Inv ∧ ∃ t, step sending = .next t) ∧ (receiving.Inv ∧ ∃ t, step receiving = .next t) :=
  ⟨⟨sending_inv, _, rfl⟩, receiving_inv, _, rfl⟩

theorem witness_InvariantStatesNeverStop : sending.Inv ∧ receiving.Inv ∧ delivered.Inv :=
  ⟨sending_inv, receiving_inv, delivered_inv⟩

theorem witness_ParametersNeverChange : ∃ t, step receiving = .next t := ⟨_, rfl⟩

/-- Two states that agree on one engine only. -/
theorem witness_EnginesDoNotInterfere :
    (nextTurn sending = .enc ∧ nextTurn { sending with dec := receiving.dec } = .enc ∧
      sending.dec ≠ receiving.dec ∧ ∃ t, step sending = .next t) ∧
    (nextTurn receiving = .dec ∧ nextTurn { receiving with enc := sending.enc } = .dec ∧
      receiving.enc ≠ sending.enc ∧ ∃ t, step receiving = .next t) :=
  ⟨⟨by decide, by decide, by decide, _, rfl⟩, by decide, by decide, by decide, _, rfl⟩

theorem witness_IdleEnginesWait :
    let s := start [] 0 [] [] [.enc]
    let u := start [] 0 [] [] [.dec]
    (nextTurn s = .enc ∧ s.enc.state = .idle ∧ s.enc.requests = []) ∧
    (nextTurn u = .dec ∧ u.dec.state = .idle ∧ u.dec.requests = 0) := by decide

theorem witness_ResetInputAbandonsCommands :
    nextTurn { sending with schedule := [.reset] } = .reset ∧ sending.enc.state = .send := by
  decide

theorem witness_DataWindowStaysUntilTheNextRead :
    delivered.Inv ∧ delivered.dec.frame = some (.rxPacket r28) ∧
    (∃ t, step delivered = .next t) ∧ nextTurn delivered ≠ .reset ∧
    ¬ (nextTurn delivered = .dec ∧ 0 < delivered.dec.requests) :=
  ⟨delivered_inv, delivered_frame, ⟨_, rfl⟩, by decide, by decide⟩

/-- READ with any answers to come, with the parameters `c`. -/
def readFrom (c : Config) (answers : List SourceAnswer) : State :=
  (State.resetWith c).withInputs [] 1 [] answers (List.replicate (answers.length + 1) .dec)

/-- Any answers meet the hypotheses: those of every ending, and those of none. -/
theorem witness_ReadEndsAsTheSpecSays (answers : List SourceAnswer) :
    let s := readFrom .default answers
    s.Inv ∧ s.dec.state = .idle ∧ s.dec.requests = 1 ∧ s.dec.answers = answers ∧
    s.schedule = List.replicate (answers.length + 1) .dec ++ [] :=
  ⟨start_inv _ _ _ _ _, rfl, rfl, rfl, (List.append_nil _).symm⟩

/-- Both conclusions: an ending (V37), and none. -/
theorem witness_ReadEndsAsTheSpecSays_clauses :
    readOf .default [.ready 0x7E, .ready 0x00, .notReady, .ready 0x01, .ready 0x88, .ready 0x77] =
      some ⟨.failed (.unsupported 0x88), 5, []⟩ ∧
    readOf .default [.ready 0x7E, .ready 0x00, .notReady, .ready 0x01] = none := by decide

/-- Exactly `CAP + 3` answers other than NotReady, with `CAP = 1`. -/
theorem witness_ReadEndsUnderFairness :
    let answers : List SourceAnswer :=
      [.ready 0x7E, .notReady, .ready 0x00, .ready 0x00, .notReady, .ready 0xFF]
    let s := readFrom otherConfig answers
    s.Inv ∧ s.dec.state = .idle ∧ s.dec.requests = 1 ∧ s.dec.answers = answers ∧
    s.schedule = List.replicate (answers.length + 1) .dec ++ [] ∧
    s.config.cap + 3 ≤ answers.countP (· ≠ .notReady) :=
  ⟨⟨(by decide : otherConfig.wf), idle_encInv _ rfl rfl, idle_decInv _ rfl rfl rfl rfl⟩, rfl, rfl,
    rfl, rfl, by decide⟩

/-- The answers of V22, of which eighteen are not NotReady. -/
theorem witness_EncodeEndsUnderFairness :
    emitStart.Inv ∧ emitStart.enc.state = .idle ∧ emitStart.enc.requests = [zeroFrame []] ∧
    encodedLength (zeroFrame []) ≤ emitStart.config.cap ∧ emitStart.enc.answers = emitAnswers ∧
    emitStart.schedule = List.replicate (emitAnswers.length + 1) .enc ++ [] ∧
    encodedLength (zeroFrame []) + 4 ≤ emitAnswers.countP (· ≠ .notReady) :=
  ⟨start_inv _ _ _ _ _, rfl, rfl, by decide, rfl, rfl, by decide⟩

/-- Three NotReady answers and no other, for the second clause. -/
theorem witness_ReadEndsUnderFairness_notReady :
    let answers : List SourceAnswer := List.replicate 3 .notReady
    let s := readFrom otherConfig answers
    s.Inv ∧ s.dec.state = .idle ∧ s.dec.requests = 1 ∧ s.dec.answers = answers ∧
    s.schedule = List.replicate (answers.length + 1) .dec ++ [] ∧
    (∀ a ∈ answers, a = .notReady) :=
  ⟨⟨(by decide : otherConfig.wf), idle_encInv _ rfl rfl, idle_decInv _ rfl rfl rfl rfl⟩, rfl, rfl,
    rfl, rfl, by simp⟩

/-- ENCODE of V14 with any answers to come. -/
def encodeFrom (answers : List SinkAnswer) : State :=
  start [zeroFrame []] 0 answers [] (List.replicate (answers.length + 1) .enc)

theorem encodeFrom_meets (answers : List SinkAnswer) :
    (encodeFrom answers).Inv ∧ (encodeFrom answers).enc.state = .idle ∧
    (encodeFrom answers).enc.requests = [zeroFrame []] ∧
    encodedLength (zeroFrame []) ≤ (encodeFrom answers).config.cap ∧
    (encodeFrom answers).enc.answers = answers ∧
    (encodeFrom answers).schedule = List.replicate (answers.length + 1) .enc ++ [] :=
  ⟨start_inv _ _ _ _ _, rfl, rfl, (by decide : encodedLength (zeroFrame []) ≤ 256), rfl,
    (List.append_nil _).symm⟩

/-- Three NotReady answers and no other, for the second clause. -/
theorem witness_EncodeEndsUnderFairness_notReady :
    let answers : List SinkAnswer := List.replicate 3 .notReady
    ((encodeFrom answers).Inv ∧ (encodeFrom answers).enc.state = .idle ∧
      (encodeFrom answers).enc.requests = [zeroFrame []] ∧
      encodedLength (zeroFrame []) ≤ (encodeFrom answers).config.cap ∧
      (encodeFrom answers).enc.answers = answers ∧
      (encodeFrom answers).schedule = List.replicate (answers.length + 1) .enc ++ []) ∧
    (∀ a ∈ answers, a = .notReady) := ⟨encodeFrom_meets _, by simp⟩

/-- Seventeen bytes accepted, then an error for the last: the first clause, with an ending by error. -/
theorem witness_EncodeEndsUnderFairness_error :
    let answers := List.replicate 17 SinkAnswer.accepted ++ [.error sinkErr]
    ((encodeFrom answers).Inv ∧ (encodeFrom answers).enc.state = .idle ∧
      (encodeFrom answers).enc.requests = [zeroFrame []] ∧
      encodedLength (zeroFrame []) ≤ (encodeFrom answers).config.cap ∧
      (encodeFrom answers).enc.answers = answers ∧
      (encodeFrom answers).schedule = List.replicate (answers.length + 1) .enc ++ []) ∧
    encodedLength (zeroFrame []) + 4 ≤ answers.countP (· ≠ .notReady) ∧
    SinkAnswer.error sinkErr ∈ answers := ⟨encodeFrom_meets _, by decide, by simp⟩

/-- Both engines, in the middle of a command, with an answer that makes progress. -/
theorem witness_EveryAnswerMakesProgress :
    (sending.Inv ∧ nextTurn sending = .enc ∧ sending.enc.state = .send ∧
      sinkAnswer sending ≠ .notReady) ∧
    (receiving.Inv ∧ nextTurn receiving = .dec ∧ receiving.dec.state ≠ .idle ∧
      sourceAnswer receiving ≠ .notReady) :=
  ⟨⟨sending_inv, by decide⟩, receiving_inv, by decide⟩

/-- The same two engines, active, when the answer is NotReady. -/
theorem witness_EveryAnswerMakesProgress_notReady :
    let s := sendingWith .notReady
    let u : State := { receiving with dec := { receiving.dec with answers := [.notReady] } }
    (s.Inv ∧ nextTurn s = .enc ∧ s.enc.state = .send ∧ sinkAnswer s = .notReady) ∧
    (u.Inv ∧ nextTurn u = .dec ∧ u.dec.state ≠ .idle ∧ sourceAnswer u = .notReady) :=
  ⟨⟨⟨sending_inv.config, ⟨sending_inv.enc.bufCanonical, sending_inv.enc.bufInRange,
      sending_inv.enc.sending⟩, sending_inv.dec⟩, by decide⟩,
    ⟨receiving_inv.config, receiving_inv.enc, ⟨receiving_inv.dec.bufCanonical,
      receiving_inv.dec.bufInRange, receiving_inv.dec.highByte, receiving_inv.dec.inBody,
      receiving_inv.dec.active, receiving_inv.dec.frameIsOutcome, receiving_inv.dec.delivered⟩⟩,
    by decide⟩

/-- A step that reports an error. -/
theorem witness_TransportErrorsAreOpaque :
    nextWith (step (sendingWith (.error sinkErr)))
      (fun t => t.enc.out == some (.failed (.other sinkErr))) = true := by decide

end Sys2Proof.Tests
end

/-! SUPPORT. Proofs about the frame format (30_encoding.md): the big-endian length, the checksum in
numbers, and which byte sequences are well-formed frames. -/

namespace Sys2Proof

/-! ### Byte order (R9, R82) -/

theorem toNat_be16 (h l : Byte) : (be16 h l).toNat = h.toNat * 256 + l.toNat := by
  rw [be16, BitVec.toNat_append, ← Nat.shiftLeft_add_eq_or_of_lt l.isLt, Nat.shiftLeft_eq]

theorem toNat_hi8 (v : U16) : (hi8 v).toNat = v.toNat / 256 := by
  have hv := v.isLt
  rw [hi8, BitVec.toNat_setWidth, BitVec.toNat_ushiftRight, Nat.shiftRight_eq_div_pow]
  omega

theorem toNat_lo8 (v : U16) : (lo8 v).toNat = v.toNat % 256 := BitVec.toNat_setWidth ..

@[simp] theorem be16_hi8_lo8 (v : U16) : be16 (hi8 v) (lo8 v) = v := by
  apply BitVec.eq_of_toNat_eq
  rw [toNat_be16, toNat_hi8, toNat_lo8]
  omega

@[simp] theorem hi8_be16 (h l : Byte) : hi8 (be16 h l) = h := by
  apply BitVec.eq_of_toNat_eq
  rw [toNat_hi8, toNat_be16]
  omega

@[simp] theorem lo8_be16 (h l : Byte) : lo8 (be16 h l) = l := by
  apply BitVec.eq_of_toNat_eq
  rw [toNat_lo8, toNat_be16]
  omega

/-! ### The checksum (R84, R85) -/

theorem toNat_sum8 (bs : List Byte) : (sum8 bs).toNat = (bs.map BitVec.toNat).sum % 256 := by
  induction bs with
  | nil => rfl
  | cons b bs ih =>
    rw [sum8_cons, BitVec.toNat_add, ih, List.map_cons, List.sum_cons]
    omega

/-- No byte sum exceeds 0xFF, so the subtraction of R84 never wraps. -/
theorem toNat_checksum (p : List Byte) : (checksum p).toNat = 0xFF - (sum8 p).toNat := by
  unfold checksum
  bv_omega

/-- R85: the byte that verifies after a payload is the computed checksum, and no other. -/
theorem sum8_add_eq_iff (p : List Byte) (c : Byte) : sum8 p + c = 0xFF ↔ c = checksum p := by
  rw [← sum8_add_checksum p, BitVec.add_right_inj]

theorem sum8_concat_eq_iff (p : List Byte) (c : Byte) :
    sum8 (p ++ [c]) = 0xFF ↔ c = checksum p := by
  rw [← sum8_add_eq_iff]
  simp

/-! ### Frames (R80, R85) -/

/-- A length field that holds the payload's length is the one a built frame carries. -/
theorem frameAround_eq_of_be16 {h l : Byte} {p : List Byte} (hlen : p.length = (be16 h l).toNat) :
    frameAround p = startByte :: h :: l :: (p ++ [checksum p]) := by
  simp [frameAround, hlen]

/-- A payload that the length field can count (R82) has a length field. -/
theorem exists_be16_eq_length {p : List Byte} (hp : p.length ≤ 65535) :
    ∃ h l : Byte, p.length = (be16 h l).toNat := by
  refine ⟨hi8 (.ofNat 16 p.length), lo8 (.ofNat 16 p.length), ?_⟩
  rw [be16_hi8_lo8, BitVec.toNat_ofNat, Nat.mod_eq_of_lt (by omega)]

theorem isFrame_cons_iff (start h l : Byte) (body : List Byte) :
    isFrame (start :: h :: l :: body) = true ↔
      start = startByte ∧ body.length = (be16 h l).toNat + 1 ∧ sum8 body = 0xFF := by
  simp [isFrame, and_assoc]

/-- The parts of a well-formed frame: delimiter, length field, payload, computed checksum. -/
theorem isFrame_iff (bs : List Byte) :
    isFrame bs = true ↔ ∃ (h l : Byte) (p : List Byte),
      bs = startByte :: h :: l :: (p ++ [checksum p]) ∧ p.length = (be16 h l).toNat := by
  constructor
  · intro hbs
    match bs, hbs with
    | start :: h :: l :: body, hbs =>
      obtain ⟨rfl, hlen, hsum⟩ := (isFrame_cons_iff ..).mp hbs
      rcases List.eq_nil_or_concat' body with rfl | ⟨p, c, rfl⟩
      · simp at hlen
      · obtain rfl := (sum8_concat_eq_iff p c).mp hsum
        exact ⟨h, l, p, rfl, by simpa using hlen⟩
  · rintro ⟨h, l, p, rfl, hlen⟩
    exact (isFrame_cons_iff ..).mpr ⟨rfl, by simp [hlen], (sum8_concat_eq_iff ..).mpr rfl⟩

/-- R80, R85: the well-formed frames are those built around a payload the length field can count. -/
theorem isFrame_iff_exists_frameAround (bs : List Byte) :
    isFrame bs = true ↔ ∃ p : List Byte, p.length ≤ 65535 ∧ bs = frameAround p := by
  rw [isFrame_iff]
  constructor
  · rintro ⟨h, l, p, rfl, hlen⟩
    exact ⟨p, by omega, (frameAround_eq_of_be16 hlen).symm⟩
  · rintro ⟨p, hp, rfl⟩
    obtain ⟨h, l, hlen⟩ := exists_be16_eq_length hp
    exact ⟨h, l, p, frameAround_eq_of_be16 hlen, hlen⟩

/-! ### The statements of the family -/

/-- Settles O10: the length field of a payload that fits is one `be16` reads back. -/
theorem frameCarriesBigEndianLength : Obligations.FrameCarriesBigEndianLength := by
  refine ⟨toNat_be16, fun p hp => ?_⟩
  obtain ⟨h, l, hlen⟩ := exists_be16_eq_length hp
  exact ⟨h, l, frameAround_eq_of_be16 hlen, hlen.symm, length_frameAround p⟩

/-- Settles O11: the checksum in numbers, and the one byte that verifies after a payload. -/
theorem wellFormedFramesAreTheBuiltOnes : Obligations.WellFormedFramesAreTheBuiltOnes :=
  ⟨fun p => (toNat_checksum p).trans (by rw [toNat_sum8]), isFrame_iff_exists_frameAround⟩

end Sys2Proof

/-! SUPPORT. Proofs about the value model (40_value_model.md): addresses and their bytes, the option
bits that survive parsing, and what stands at each offset of a TXREQUEST payload. -/

namespace Sys2Proof

/-! ### Extended addresses (R112, R113) -/

theorem toNat_append_byte {w : Nat} (v : BitVec w) (b : Byte) :
    (v ++ b).toNat = v.toNat * 256 + b.toNat := by
  rw [BitVec.toNat_append, ← Nat.shiftLeft_add_eq_or_of_lt b.isLt, Nat.shiftLeft_eq]

theorem toNat_be32 (b0 b1 b2 b3 : Byte) : (be32 b0 b1 b2 b3).toNat =
    b0.toNat * 2 ^ 24 + b1.toNat * 2 ^ 16 + b2.toNat * 2 ^ 8 + b3.toNat := by
  rw [be32, toNat_append_byte, toNat_append_byte, toNat_append_byte]
  omega

/-- R113: the index selects the half, and counts bytes from its most significant one. -/
theorem toNat_byteAt (a : ExtendedAddress) (i : Fin 8) : (byteAt a i).toNat =
    if i.val ≤ 3 then a.high.toNat / 2 ^ (8 * (3 - i.val)) % 256
    else a.low.toNat / 2 ^ (8 * (7 - i.val)) % 256 := by
  unfold byteAt
  split
  all_goals rw [BitVec.toNat_setWidth, BitVec.toNat_ushiftRight, Nat.shiftRight_eq_div_pow]

theorem getElem?_ser64 (a : ExtendedAddress) (i : Fin 8) :
    (ser64 a)[i.val]? = some (byteAt a i) := by
  fin_cases i <;> rfl

/-- R112: four bytes of one half, taken by their place value, give the half back. -/
theorem be32_eq_of_toNat_eq_div {v : U32} {b0 b1 b2 b3 : Byte}
    (h0 : b0.toNat = v.toNat / 2 ^ 24 % 256) (h1 : b1.toNat = v.toNat / 2 ^ 16 % 256)
    (h2 : b2.toNat = v.toNat / 2 ^ 8 % 256) (h3 : b3.toNat = v.toNat / 2 ^ 0 % 256) :
    be32 b0 b1 b2 b3 = v := by
  apply BitVec.eq_of_toNat_eq
  rw [toNat_be32]
  omega

@[simp] theorem par64_byteAt (a : ExtendedAddress) :
    par64 (byteAt a 0) (byteAt a 1) (byteAt a 2) (byteAt a 3) (byteAt a 4) (byteAt a 5)
      (byteAt a 6) (byteAt a 7) = a := by
  unfold par64
  congr 1
  · exact be32_eq_of_toNat_eq_div (toNat_byteAt a 0) (toNat_byteAt a 1) (toNat_byteAt a 2)
      (toNat_byteAt a 3)
  · exact be32_eq_of_toNat_eq_div (toNat_byteAt a 4) (toNat_byteAt a 5) (toNat_byteAt a 6)
      (toNat_byteAt a 7)

theorem byteAt_par64 (m0 m1 m2 m3 m4 m5 m6 m7 : Byte) (i : Fin 8) :
    byteAt (par64 m0 m1 m2 m3 m4 m5 m6 m7) i = [m0, m1, m2, m3, m4, m5, m6, m7][i] := by
  apply BitVec.eq_of_toNat_eq
  rw [toNat_byteAt, par64, toNat_be32, toNat_be32]
  fin_cases i <;> simp <;> omega

@[simp] theorem ser64_par64 (m0 m1 m2 m3 m4 m5 m6 m7 : Byte) :
    ser64 (par64 m0 m1 m2 m3 m4 m5 m6 m7) = [m0, m1, m2, m3, m4, m5, m6, m7] := by
  simp [ser64, byteAt_par64]

/-! ### Received options (R116) -/

/-- Bits 0, 1 and 5 are the ones of the mask. -/
theorem getLsbD_parRxOpt (b : Byte) (i : Nat) :
    (parRxOpt b).getLsbD i = (b.getLsbD i && (i == 0 || i == 1 || i == 5)) := by
  rw [parRxOpt, BitVec.getLsbD_and]
  by_cases hi : i < 8
  · interval_cases i <;> rfl
  · rw [BitVec.getLsbD_of_ge b i (by omega), Bool.false_and, Bool.false_and]

/-! ### The offsets of an outbound payload and of its frame (R80, R90, R142) -/

theorem getElem?_payloadOf_destMac (f : TxRequest) (i : Fin 8) :
    (payloadOf f)[2 + i.val]? = some (byteAt f.destMac i) := by
  fin_cases i <;> rfl

theorem getElem?_payloadOf_data (f : TxRequest) (j : Nat) :
    (payloadOf f)[14 + j]? = f.data[j]? := by
  rw [payloadOf, List.getElem?_append_right (by simp)]
  simp

/-- The delimiter and the length field stand before the payload (R80). -/
theorem getElem?_frameAround_payload {p : List Byte} {k : Nat} (hk : k < p.length) :
    (frameAround p)[3 + k]? = p[k]? := by
  rw [frameAround, List.append_assoc, List.getElem?_append_right (by simp)]
  simp [List.getElem?_append_left hk]

/-! ### The statements of the family -/

/-- Settles O4: each byte by its place value in its half, which makes `ser64` and `par64` inverse. -/
theorem extendedAddressBytesAreBigEndian : Obligations.ExtendedAddressBytesAreBigEndian :=
  ⟨toNat_byteAt, getElem?_ser64,
    fun m0 m1 m2 m3 m4 m5 m6 m7 =>
      ⟨toNat_be32 m0 m1 m2 m3, toNat_be32 m4 m5 m6 m7, ser64_par64 m0 m1 m2 m3 m4 m5 m6 m7⟩,
    par64_byteAt, by decide⟩

/-- Settles O8: the offsets of the fixed part, of the data, and of the payload in its frame. -/
theorem txRequestPayloadLayout : Obligations.TxRequestPayloadLayout := fun f =>
  ⟨rfl, rfl, getElem?_payloadOf_destMac f, rfl, rfl, rfl, rfl, getElem?_payloadOf_data f,
    fun _ hk => getElem?_frameAround_payload hk⟩

/-- Settles O5: both directions only regroup the two bytes. -/
theorem shortAddressIsTwoBytes : Obligations.ShortAddressIsTwoBytes :=
  ⟨fun _ => ⟨rfl, rfl⟩, fun _ _ => ⟨rfl, rfl⟩, rfl⟩

/-- Settles O6: the bits of the mask, and the corner cases by evaluation. -/
theorem rxOptionsKeepOnlyNamedBits : Obligations.RxOptionsKeepOnlyNamedBits :=
  ⟨getLsbD_parRxOpt, by decide⟩

end Sys2Proof

/-! SUPPORT. Proofs about the outbound frame (41_outbound_txrequest.md): the length that
`encodedLength` predicts is the length that is built. -/

namespace Sys2Proof

/-! ### The encoded length (R141, R145) -/

/-- R141: the fixed fields of a TXREQUEST take 14 bytes. -/
theorem encodedLength_eq (f : TxRequest) : encodedLength f = 14 + f.data.length := rfl

/-! ### The statements of the family -/

/-- Settles O9: the payload has the predicted length, and the wire frame adds four bytes to it. -/
theorem encodedLengthIsExact : Obligations.EncodedLengthIsExact := fun f =>
  have hwire : (wire f).length = 14 + f.data.length + 4 := by
    rw [length_wire, encodedLength_eq]
  ⟨encodedLength_eq f, length_payloadOf f, hwire⟩

end Sys2Proof

/-! SUPPORT. Proofs about the inbound parser (42_inbound_parse.md): what a tag without an arm in the
parser gives, in decode and execute and in the step that completes the body. -/

namespace Sys2Proof

open Sys2Proof.Machine

/-! ### Tags that the parser has no arm for (R171) -/

theorem parse_otherTag (c : Config) {tag : Byte} (rest : List Byte) (hrx : tag ≠ 0x90)
    (htx : tag ≠ 0x8B) : parse c (tag :: rest) = .error (.unsupported tag) :=
  (if_neg hrx).trans (if_neg htx)

theorem rejectError_of_otherTag {tag : Byte} {rest : List Byte} {r : InboundReject}
    (hrx : tag ≠ 0x90) (htx : tag ≠ 0x8B) (hd : decodeInbound (tag :: rest) = .error r) :
    rejectError r = .unsupported tag := by
  have herr := (parse_rejected (c := .default) hd).symm.trans (parse_otherTag _ rest hrx htx)
  exact Except.error.inj herr

theorem exec_of_otherTag {tag : Byte} {rest : List Byte} {i : Instr} (hrx : tag ≠ 0x90)
    (htx : tag ≠ 0x8B) (hd : decodeInbound (tag :: rest) = .ok i) (s : State) :
    exec i s = .next (raise (.dec (.unsupported tag)) s) := by
  rw [exec_decoded hd, parse_otherTag _ rest hrx htx]

theorem readOutcome_otherTag (c : Config) {tag sum : Byte} (rest : List Byte) (hrx : tag ≠ 0x90)
    (htx : tag ≠ 0x8B) (hsum : sum = 0xFF#8) :
    readOutcome c (tag :: rest) sum = .failed (.unsupported tag) := by
  rw [readOutcome, if_pos hsum, parse_otherTag c rest hrx htx, outcomeOf]

/-! ### The step that completes a body (R230, R231) -/

/-- The state in which the last body byte `b` has been taken from the source and stored. -/
def bodyReceived (b : Byte) (s : State) : State :=
  bodyStored b (s.dec.buf.write s.dec.idx.toNat b) (sourceGave (sourcePolled (popTurn s)))

/-- R230, R231: the step that is answered with the last body byte stores it and completes the
frame. -/
theorem step_lastBodyByte {s : State} {b : Byte} (hturn : nextTurn s = .dec)
    (hbody : s.dec.state = .body) (hans : sourceAnswer s = .ready b)
    (hidx : s.dec.idx.toNat = s.dec.len.toNat) (hcap : s.dec.len.toNat + 1 ≤ s.config.cap) :
    step s = completeFrame (bodyReceived b s) := by
  have hpoll : step s = readyBody b (sourceGave (sourcePolled (popTurn s))) := by
    have hans' : sourceAnswer (popTurn s) = .ready b := hans
    simp [step, hturn, decStep, hbody, decPoll, hans']
  exact hpoll.trans (readyBody_last b hidx hcap)

/-- The last body byte goes to the cell after the payload (R230). -/
theorem bodyReceived_holds {s : State} {p : List Byte} (b : Byte) (hp : Holds s.dec.buf p)
    (hlen : p.length ≤ s.dec.idx.toNat) : Holds (bodyReceived b s).dec.buf p :=
  hp.write_above b hlen

/-- A payload without an arm in the parser, completed with a right checksum. -/
theorem completeFrame_otherTag {s : State} {tag : Byte} {rest : List Byte} (hrx : tag ≠ 0x90)
    (htx : tag ≠ 0x8B) (hp : Holds s.dec.buf (tag :: rest))
    (hlen : (tag :: rest).length = s.dec.len.toNat) (hcap : (tag :: rest).length ≤ s.config.cap)
    (hsum : s.dec.sum = 0xFF#8) :
    completeFrame s = .next (raise (.dec (.unsupported tag)) s) := by
  rw [completeFrame_eq hp hlen hcap, readOutcome_otherTag _ rest hrx htx hsum]

/-! ### The statements of the family -/

/-- Settles O37: the parser has no arm for the tag, and both decode and execute and the completing
step do what the parser says. -/
theorem everyOtherTagIsUnsupported : Obligations.EveryOtherTagIsUnsupported := by
  intro s tag rest hrx htx
  constructor
  · cases hd : decodeInbound (tag :: rest) with
    | error r => exact .inl ⟨r, rfl, rejectError_of_otherTag hrx htx hd⟩
    | ok i => exact .inr ⟨i, rfl, exec_of_otherTag hrx htx hd s⟩
  · intro b hturn hbody hans hidx hcap hlen hp hsum
    have hstep : step s = .next (raise (.dec (.unsupported tag)) (bodyReceived b s)) :=
      (step_lastBodyByte hturn hbody hans hidx hcap).trans
        (completeFrame_otherTag hrx htx
          (bodyReceived_holds b hp (by simp only [List.length_cons]; omega)) hlen
          (show rest.length + 1 ≤ s.config.cap by omega) hsum)
    exact ⟨_, hstep, rfl, rfl, rfl, rfl, rfl, rfl⟩

end Sys2Proof

/-! SUPPORT. Proofs about the encoder (43_encoder.md): the poll of a sending ENC, for the answers that
send nothing. -/

namespace Sys2Proof

open Sys2Proof.Machine

/-! ### The poll of a sending ENC (R196) -/

/-- R196: a sending ENC offers the byte at `enc_idx`, and an idle one offers nothing. -/
theorem sinkOffer_eq_some_iff {s : State} {b : Byte} :
    s.sinkOffer = some b ↔ s.enc.state = .send ∧ s.enc.buf.read s.enc.idx.toNat = some b := by
  cases hs : s.enc.state with
  | idle => simp [State.sinkOffer, hs]
  | send => simp [State.sinkOffer, hs]

/-- R196: on its turn, an ENC that offers a byte polls the sink. -/
theorem step_offering {s : State} {b : Byte} (hturn : nextTurn s = .enc)
    (hoffer : s.sinkOffer = some b) : step s = encPoll (popTurn s) := by
  obtain ⟨hsend, -⟩ := sinkOffer_eq_some_iff.mp hoffer
  simp only [step, hturn, encStep, popTurn_enc, hsend]

/-- An offered byte inside the buffer is one that the poll can load. -/
theorem load_offered {s : State} {b : Byte} (hidx : s.enc.idx.toNat < s.config.cap + 4)
    (hoffer : s.sinkOffer = some b) :
    load (encBufSize s.config) s.enc.buf s.enc.idx.toNat = .ok b := by
  obtain ⟨-, hread⟩ := sinkOffer_eq_some_iff.mp hoffer
  exact load_ok hidx hread

/-- R198: the step that is answered NotReady. -/
theorem step_sinkNotReady {s : State} {b : Byte} (hturn : nextTurn s = .enc)
    (hidx : s.enc.idx.toNat < s.config.cap + 4) (hoffer : s.sinkOffer = some b)
    (hans : sinkAnswer s = .notReady) : step s = .next (sinkPolled (popTurn s)) := by
  obtain ⟨hnotReady, -⟩ := encPoll_answers (s := popTurn s) (load_offered hidx hoffer)
  rw [step_offering hturn hoffer, hnotReady hans]

/-- R199: the step that is answered with an error. -/
theorem step_sinkError {s : State} {b : Byte} {e : SinkErr} (hturn : nextTurn s = .enc)
    (hidx : s.enc.idx.toNat < s.config.cap + 4) (hoffer : s.sinkOffer = some b)
    (hans : sinkAnswer s = .error e) :
    step s = .next (raise (.enc (.other e)) (sinkPolled (popTurn s))) := by
  obtain ⟨-, herror, -⟩ := encPoll_answers (s := popTurn s) (load_offered hidx hoffer)
  rw [step_offering hturn hoffer, herror e hans]

/-- A poll and a used-up turn touch nothing that the offer is read from. -/
theorem sinkOffer_sinkPolled_popTurn (s : State) :
    (sinkPolled (popTurn s)).sinkOffer = s.sinkOffer := rfl

/-! ### The statements of the family -/

/-- Settles O17: the step only uses up the answer and the turn, and the offer does not depend on
them. -/
theorem sinkNotReadyChangesNothing : Obligations.SinkNotReadyChangesNothing := by
  intro s b hturn _ hidx hoffer hans
  have hkept : (sinkPolled (popTurn s)).sinkOffer = some b :=
    (sinkOffer_sinkPolled_popTurn s).trans hoffer
  exact ⟨_, step_sinkNotReady hturn hidx hoffer hans, hkept, rfl⟩

/-- Settles O19: `raise` after the poll writes the sequencer and the outcome alone. -/
theorem sinkErrorEndsEncode : Obligations.SinkErrorEndsEncode := by
  intro s b e hturn _ hidx hoffer hans
  exact step_sinkError hturn hidx hoffer hans

end Sys2Proof

/-! SUPPORT. Proofs about the decoder (44_decoder.md): the poll of a DEC that is not idle, for the
answers that give no byte, and the first byte of a frame. -/

namespace Sys2Proof

open Sys2Proof.Machine

/-! ### The poll of an active DEC (R222 to R224) -/

section
variable {onReady : Byte → State → Host.Outcome State Fault Refusal} {s : State}

theorem decPoll_notReady (hans : sourceAnswer s = .notReady) :
    decPoll onReady s = .next (sourcePolled s) := by
  rw [decPoll, hans]

theorem decPoll_error {e : SourceErr} (hans : sourceAnswer s = .error e) :
    decPoll onReady s = .next (raise (.dec (.other e)) (sourcePolled s)) := by
  rw [decPoll, hans]

theorem decPoll_ready {b : Byte} (hans : sourceAnswer s = .ready b) :
    decPoll onReady s = onReady b (sourceGave (sourcePolled s)) := by
  rw [decPoll, hans]

end

theorem step_of_decTurn {s : State} (hturn : nextTurn s = .dec) : step s = decStep (popTurn s) := by
  rw [step, hturn]

/-- R222: in each of the four polling states DEC polls the source; they differ only in what a byte
does. -/
theorem decStep_polling {s : State} (hactive : s.dec.state ≠ .idle) :
    ∃ onReady, decStep s = decPoll onReady s := by
  unfold decStep
  cases hs : s.dec.state with
  | idle => exact absurd hs hactive
  | start => exact ⟨readyStart, rfl⟩
  | lenHi => exact ⟨readyLenHi, rfl⟩
  | lenLo => exact ⟨readyLenLo, rfl⟩
  | body => exact ⟨readyBody, rfl⟩

theorem decStep_start {s : State} (hstart : s.dec.state = .start) :
    decStep s = decPoll readyStart s := by
  rw [decStep, hstart]

/-- R222: on its turn, a DEC that is not idle polls the source. -/
theorem step_polling {s : State} (hturn : nextTurn s = .dec) (hactive : s.dec.state ≠ .idle) :
    ∃ onReady, step s = decPoll onReady (popTurn s) := by
  rw [step_of_decTurn hturn]
  exact decStep_polling hactive

/-- R223: the step that is answered NotReady. -/
theorem step_sourceNotReady {s : State} (hturn : nextTurn s = .dec) (hactive : s.dec.state ≠ .idle)
    (hans : sourceAnswer s = .notReady) : step s = .next (sourcePolled (popTurn s)) := by
  obtain ⟨onReady, hstep⟩ := step_polling hturn hactive
  exact hstep.trans (decPoll_notReady hans)

/-- R224: the step that is answered with an error. -/
theorem step_sourceError {s : State} {e : SourceErr} (hturn : nextTurn s = .dec)
    (hactive : s.dec.state ≠ .idle) (hans : sourceAnswer s = .error e) :
    step s = .next (raise (.dec (.other e)) (sourcePolled (popTurn s))) := by
  obtain ⟨onReady, hstep⟩ := step_polling hturn hactive
  exact hstep.trans (decPoll_error hans)

/-! ### The first byte of a frame (R225) -/

/-- R225: the step in `D_START` that is answered with a byte. -/
theorem step_firstByte {s : State} {b : Byte} (hturn : nextTurn s = .dec)
    (hstart : s.dec.state = .start) (hans : sourceAnswer s = .ready b) :
    step s = readyStart b (sourceGave (sourcePolled (popTurn s))) := by
  calc step s = decStep (popTurn s) := step_of_decTurn hturn
    _ = decPoll readyStart (popTurn s) := decStep_start hstart
    _ = readyStart b (sourceGave (sourcePolled (popTurn s))) := decPoll_ready hans

theorem readyStart_startByte (s : State) :
    readyStart startByte s = .next (gotoDec .lenHi s) := if_pos rfl

theorem readyStart_otherByte {b : Byte} (hb : b ≠ startByte) (s : State) :
    readyStart b s = .next (raise (.dec .noStart) s) := if_neg hb

/-! ### The statements of the family -/

/-- Settles O23: after the poll only the answer, the outcome and the turn are used up. -/
theorem sourceNotReadyChangesNothing : Obligations.SourceNotReadyChangesNothing := by
  intro s hturn hactive hans
  exact step_sourceNotReady hturn hactive hans

/-- Settles O24: `raise` after the poll writes the sequencer and the outcome alone. -/
theorem sourceErrorEndsRead : Obligations.SourceErrorEndsRead := by
  intro s e hturn hactive hans
  exact step_sourceError hturn hactive hans

/-- Settles O25: the poll takes the byte, and `readyStart` compares it with the delimiter. -/
theorem onlyTheStartDelimiterStarts : Obligations.OnlyTheStartDelimiterStarts := by
  intro s b hturn hstart hans
  rw [step_firstByte hturn hstart hans]
  constructor
  · rintro rfl
    exact readyStart_startByte _
  · intro hb
    exact readyStart_otherByte hb _

end Sys2Proof

/-! SUPPORT. Proofs about the encodings of 30_encoding.md: the two round trips of the instruction
codec, words of the layouts, and what one changed byte does to a frame's checksum. -/

namespace Sys2Proof

open Sys2Proof.Machine

/-! ### The parts of a payload after its tag (R90 to R92) -/

theorem decodeRxPacket_short {rest : List Byte} (hlen : rest.length ≤ 10) :
    decodeRxPacket rest = .short rest := by
  rcases decodeRxPacket_cases rest with ⟨-, hd⟩ | ⟨_, _, _, _, _, _, _, _, _, _, _, _, rfl, -⟩
  · exact hd
  · simp only [List.length_cons] at hlen
    omega

theorem decodeTxStatus_short {rest : List Byte} (hlen : rest.length ≤ 5) :
    decodeTxStatus rest = .short rest := by
  rcases decodeTxStatus_cases rest with ⟨-, hd⟩ | ⟨_, _, _, _, _, _, _, rfl, -⟩
  · exact hd
  · simp only [List.length_cons] at hlen
    omega

/-- R91: the fixed part is read back byte for byte. -/
theorem decodeRxPacket_encode {form : RxPacketForm} (hwf : form.wf = true) :
    decodeRxPacket (encodeRxPacket form) = form := by
  cases form with
  | complete mac addr options data =>
    exact congrArg (RxPacketForm.complete · addr options data) (par64_byteAt mac)
  | short rest =>
    have hlen : 1 + rest.length < 12 := of_decide_eq_true hwf
    exact decodeRxPacket_short (rest := rest) (by omega)

/-- R92: as for an RXPACKET, with the ignored bytes kept. -/
theorem decodeTxStatus_encode {form : TxStatusForm} (hwf : form.wf = true) :
    decodeTxStatus (encodeTxStatus form) = form := by
  cases form with
  | complete frameId addr txrCount status disco ignored => rfl
  | short rest =>
    have hlen : 1 + rest.length < 7 := of_decide_eq_true hwf
    exact decodeTxStatus_short (rest := rest) (by omega)

theorem decodeOutbound_payloadOf (f : TxRequest) :
    decodeOutbound (payloadOf f) = .ok (.txrequest (.outbound f)) :=
  congrArg (fun mac => Except.ok (Instr.txrequest (.outbound { f with destMac := mac })))
    (par64_byteAt f.destMac)

@[simp] theorem encodeRxPacket_decode (rest : List Byte) :
    encodeRxPacket (decodeRxPacket rest) = rest := by
  rcases decodeRxPacket_cases rest with ⟨-, hd⟩ | ⟨_, _, _, _, _, _, _, _, _, _, _, _, rfl, hd⟩
  · rw [hd, encodeRxPacket]
  · rw [hd, encodeRxPacket, ser64_par64]
    rfl

@[simp] theorem encodeTxStatus_decode (rest : List Byte) :
    encodeTxStatus (decodeTxStatus rest) = rest := by
  rcases decodeTxStatus_cases rest with ⟨-, hd⟩ | ⟨_, _, _, _, _, _, _, rfl, hd⟩
  · rw [hd, encodeTxStatus]
  · rw [hd]
    rfl

/-- R90, R95: the outbound decoder answers a TXREQUEST whose payload is the one it was given. -/
theorem decodeOutbound_cases {p : List Byte} {i : Instr} (h : decodeOutbound p = .ok i) :
    ∃ f, i = .txrequest (.outbound f) ∧ payloadOf f = p := by
  unfold decodeOutbound at h
  split at h
  · next tag frameId m0 m1 m2 m3 m4 m5 m6 m7 addrHi addrLo radius options data =>
    split at h
    · next htag =>
      cases h
      refine ⟨_, rfl, ?_⟩
      rw [payloadOf, ser64_par64, htag]
      rfl
    · cases h
  · split at h <;> cases h
  · cases h

/-- R94, R162: the dispatch on the tag, read backwards. -/
theorem encode_of_decodeInbound {p : List Byte} {i : Instr} (h : decodeInbound p = .ok i) :
    encode i = .inbound p := by
  rcases p with _ | ⟨tag, rest⟩
  · cases h
  · simp only [decodeInbound] at h
    repeat' split at h
    all_goals cases h
    all_goals next htag => simp [encode, htag]

/-! ### One changed byte (R125) -/

/-- Replacing one byte moves the sum by the difference of the two bytes. -/
theorem sum8_set_add {bs : List Byte} {j : Nat} {old : Byte} (hold : bs[j]? = some old) (b : Byte) :
    sum8 (bs.set j b) + old = sum8 bs + b := by
  induction bs generalizing j with
  | nil => simp at hold
  | cons x xs ih =>
    cases j with
    | zero =>
      obtain rfl : x = old := by simpa using hold
      rw [List.set_cons_zero, sum8_cons, sum8_cons]
      ac_rfl
    | succ j =>
      have hrest := ih (by simpa using hold)
      rw [List.set_cons_succ, sum8_cons, sum8_cons, BitVec.add_assoc, hrest, BitVec.add_assoc]

/-- R125: another byte at any place gives another sum. -/
theorem sum8_set_ne {bs : List Byte} {j : Nat} {b : Byte} (hj : j < bs.length)
    (hne : bs[j]? ≠ some b) : sum8 (bs.set j b) ≠ sum8 bs := by
  intro heq
  have hsum := sum8_set_add (List.getElem?_eq_getElem hj) b
  rw [heq, BitVec.add_right_inj] at hsum
  exact hne (by rw [List.getElem?_eq_getElem hj, hsum])

/-! ### Status bytes (R119, R120) -/

theorem decTxStatus_known {c : Config} {b : Byte} (h : b ∈ c.txStatusKnown) :
    decTxStatus c b = .ok b := if_pos h

theorem decTxStatus_unknown {c : Config} {b : Byte} (h : b ∉ c.txStatusKnown) :
    decTxStatus c b = .error b := if_neg h

theorem decDisco_known {c : Config} {b : Byte} (h : b ∈ c.discoKnown) :
    decDisco c b = .ok b := if_pos h

theorem decDisco_unknown {c : Config} {b : Byte} (h : b ∉ c.discoKnown) :
    decDisco c b = .error b := if_neg h

/-! ### The statements -/

/-- Settles O2: by the constructors, each form by the round trip of its part after the tag. -/
theorem decodeOfEncodeIsIdentity : Obligations.DecodeOfEncodeIsIdentity := by
  intro i hwf
  cases i with
  | encode frame => rfl
  | read => rfl
  | txrequest form =>
    cases form with
    | outbound f => simp only [encode, decode, decodeOutbound_payloadOf]
    | inbound rest => rfl
  | txstatus form =>
    exact congrArg (Except.ok <| Instr.txstatus ·) (decodeTxStatus_encode hwf)
  | rxpacket form =>
    exact congrArg (Except.ok <| Instr.rxpacket ·) (decodeRxPacket_encode hwf)
  | atresp rest => rfl
  | modemstatus rest => rfl
  | remoteatresp rest => rfl

/-- Settles O3: the two decoders, each inverted. -/
theorem encodeOfDecodeIsIdentity : Obligations.EncodeOfDecodeIsIdentity := by
  refine ⟨fun _ _ => encode_of_decodeInbound, fun p i h => ?_⟩
  obtain ⟨f, rfl, hp⟩ := decodeOutbound_cases h
  rw [encode, hp]

/-- Settles O12: the change falls into the body, whose sum it moves away from 0xFF. -/
theorem checksumDetectsAnyOneByteChange : Obligations.ChecksumDetectsAnyOneByteChange := by
  intro p i b hp hi hlt hne
  obtain ⟨h, l, hlen⟩ := exists_be16_eq_length hp
  obtain ⟨j, rfl⟩ : ∃ j, i = j + 3 := ⟨i - 3, by omega⟩
  rw [frameAround_eq_of_be16 hlen] at hne ⊢
  have hsum : sum8 ((p ++ [checksum p]).set j b) ≠ sum8 (p ++ [checksum p]) :=
    sum8_set_ne (by simp; omega) hne
  rw [(sum8_concat_eq_iff p _).mpr rfl] at hsum
  refine Bool.eq_false_iff.mpr fun hframe => ?_
  obtain ⟨-, -, hvalid⟩ := (isFrame_cons_iff ..).mp hframe
  exact hsum hvalid

/-- Settles O7: the two membership tests, and the fixed members of a legal configuration. -/
theorem statusBytesDecodeOrCarryRaw : Obligations.StatusBytesDecodeOrCarryRaw := by
  intro c b
  refine ⟨decTxStatus_known, decTxStatus_unknown, decDisco_known, decDisco_unknown, ?_⟩
  rintro ⟨-, ⟨-, -, hstatus⟩, -, hdisco⟩
  exact ⟨decTxStatus_known hstatus, decDisco_known hdisco⟩

/-- Settles O1: each word is evaluated. -/
theorem specWordsDecodeAsWritten : Obligations.SpecWordsDecodeAsWritten :=
  ⟨rfl, rfl, rfl, rfl, rfl, rfl, rfl, rfl, rfl⟩

end Sys2Proof

/-! SUPPORT. Proofs about the meanings of the inbound frame types (42_inbound_parse.md): what each
delivers or fails with, and what all of them leave unchanged. -/

namespace Sys2Proof

open Sys2Proof.Machine

/-! ### The status bytes of a TXSTATUS (R167 to R169) -/

section
variable {c : Config} {t : TransmitStatus}

theorem checkTxStatus_known (hs : t.status ∈ c.txStatusKnown) (hd : t.discoStatus ∈ c.discoKnown) :
    checkTxStatus c t = .ok (.transmitStatus t) := by
  simp only [checkTxStatus, decTxStatus_known hs, decDisco_known hd]

theorem checkTxStatus_unknownStatus (hs : t.status ∉ c.txStatusKnown) :
    checkTxStatus c t = .error (.malformed (.txStatusCode t.status)) := by
  simp only [checkTxStatus, decTxStatus_unknown hs]

theorem checkTxStatus_unknownDisco (hs : t.status ∈ c.txStatusKnown)
    (hd : t.discoStatus ∉ c.discoKnown) :
    checkTxStatus c t = .error (.malformed (.discoStatusCode t.discoStatus)) := by
  simp only [checkTxStatus, decTxStatus_known hs, decDisco_unknown hd]

/-- R168, R169: what passes the check is the value itself, with both status bytes recognised. -/
theorem checkTxStatus_eq_ok {f : Inbound} (h : checkTxStatus c t = .ok f) :
    f = .transmitStatus t ∧ t.status ∈ c.txStatusKnown ∧ t.discoStatus ∈ c.discoKnown := by
  by_cases hs : t.status ∈ c.txStatusKnown
  · by_cases hd : t.discoStatus ∈ c.discoKnown
    · rw [checkTxStatus_known hs hd] at h
      exact ⟨(Except.ok.inj h).symm, hs, hd⟩
    · rw [checkTxStatus_unknownDisco hs hd] at h
      cases h
  · rw [checkTxStatus_unknownStatus hs] at h
    cases h

end

section
variable {s : State} {frameId txrCount status disco : Byte} {addr : ShortAddress}

/-- The bytes after the seventh play no part (R175). -/
theorem exec_txstatus_ok (ignored : List Byte) {f : Inbound}
    (h : checkTxStatus s.config ⟨frameId, addr, txrCount, status, disco⟩ = .ok f) :
    exec (.txstatus (.complete frameId addr txrCount status disco ignored)) s =
      .next (deliver f s) := by
  simp only [exec, execTxstatus, h]

theorem exec_txstatus_error (ignored : List Byte) {e : DecodeError}
    (h : checkTxStatus s.config ⟨frameId, addr, txrCount, status, disco⟩ = .error e) :
    exec (.txstatus (.complete frameId addr txrCount status disco ignored)) s =
      .next (raise (.dec e) s) := by
  simp only [exec, execTxstatus, h]

end

/-! ### The tags with a parser (R94, R162) -/

theorem decodeInbound_rxPacket (rest : List Byte) :
    decodeInbound (0x90 :: rest) = .ok (.rxpacket (decodeRxPacket rest)) := rfl

theorem decodeInbound_txStatus (rest : List Byte) :
    decodeInbound (0x8B :: rest) = .ok (.txstatus (decodeTxStatus rest)) := rfl

/-! ### The statements -/

/-- Settles O31: the fields are read at their places, and `deliver` writes the value. -/
theorem rxPacketDeliversItsFields : Obligations.RxPacketDeliversItsFields := by
  intro s m0 m1 m2 m3 m4 m5 m6 m7 addrHi addrLo options data frame hframe
  subst hframe
  exact ⟨decodeInbound_rxPacket _, rfl⟩

/-- Settles O32: the decoder answers the short form, whose meaning is the failure. -/
theorem shortRxPacketIsMalformed : Obligations.ShortRxPacketIsMalformed := by
  intro s rest hlen
  rw [decodeInbound_rxPacket, decodeRxPacket_short (by omega)]
  exact ⟨rfl, rfl⟩

/-- Settles O33: both status bytes pass the check, and `deliver` writes the value. -/
theorem txStatusDeliversItsFields : Obligations.TxStatusDeliversItsFields := by
  intro s frameId addrHi addrLo txrCount status disco trailing frame hstatus hdisco hframe
  subst hframe
  exact ⟨decodeInbound_txStatus _, exec_txstatus_ok trailing (checkTxStatus_known hstatus hdisco)⟩

/-- Settles O34: the status byte is checked before the discovery status byte. -/
theorem unknownStatusIsMalformedWithRawByte : Obligations.UnknownStatusIsMalformedWithRawByte := by
  intro s frameId txrCount status disco addr trailing
  constructor
  · intro hstatus
    exact exec_txstatus_error trailing (checkTxStatus_unknownStatus hstatus)
  · intro hstatus hdisco
    exact exec_txstatus_error trailing (checkTxStatus_unknownDisco hstatus hdisco)

/-- Settles O35: as for a short RXPACKET. -/
theorem shortTxStatusIsMalformed : Obligations.ShortTxStatusIsMalformed := by
  intro s rest hlen
  rw [decodeInbound_txStatus, decodeTxStatus_short (by omega)]
  exact ⟨rfl, rfl⟩

/-- Settles O36: each meaning is `raise` with the row's own tag. -/
theorem unparsedTagsAreUnsupported : Obligations.UnparsedTagsAreUnsupported :=
  fun _ _ => ⟨rfl, rfl, rfl, rfl⟩

/-- Settles O38: a frame type is `deliver` or `raise`, which write three registers of
DEC only. -/
theorem inboundFrame : Obligations.InboundFrame := by
  intro i s t hi hexec
  rcases exec_inbound hi s with ⟨f, h⟩ | ⟨e, h⟩
  · obtain rfl : deliver f s = t := Host.Outcome.next.inj (h.symm.trans hexec)
    simp
  · obtain rfl : raise (.dec e) s = t := Host.Outcome.next.inj (h.symm.trans hexec)
    simp

end Sys2Proof

/-! SUPPORT. Proofs about the decoder's steps (44_decoder.md): the command, the length bytes, the
body bytes, and the step that completes a frame against the parser of the spec. -/

namespace Sys2Proof

open Sys2Proof.Machine

/-! ### Runs and turns -/

theorem run_of_step {s u : State} (h : step s = .next u) (n : Nat) :
    Sys2Proof.core.run (n + 1) s = Sys2Proof.core.run n u := by
  rw [run_succ, h]

theorem run_snoc {s u t : State} {n : Nat} (hrun : Sys2Proof.core.run n s = .next u)
    (hstep : step u = .next t) : Sys2Proof.core.run (n + 1) s = .next t :=
  (run_add 1 hrun).trans (run_of_step hstep 0)

theorem tail_replicate_append {α : Type} (n : Nat) (a : α) (order : List α) :
    (List.replicate (n + 1) a ++ order).tail = List.replicate n a ++ order := rfl

theorem replicate_succ_append {α : Type} (n : Nat) (a : α) (order : List α) :
    List.replicate (n + 1) a ++ order = List.replicate n a ++ a :: order := by
  rw [List.replicate_succ', List.append_assoc, List.singleton_append]

/-- R60: an entry of the schedule decides who moves. -/
theorem nextTurn_of_schedule {s : State} {turn : Turn} {order : List Turn}
    (h : s.schedule = turn :: order) : nextTurn s = turn := by
  rw [nextTurn, h]

theorem step_of_encTurn {s : State} (hturn : nextTurn s = .enc) : step s = encStep (popTurn s) := by
  rw [step, hturn]

/-- The oldest request of an idle ENC is executed (R190, R191). -/
theorem step_encodeRequest {s : State} {f : TxRequest} {later : List TxRequest}
    (hturn : nextTurn s = .enc) (hidle : s.enc.state = .idle) (hreq : s.enc.requests = f :: later) :
    step s = exec (.encode f) (popEncode (popTurn s)) := by
  rw [step_of_encTurn hturn]
  simp only [encStep, popTurn_enc, hidle, hreq]

theorem sourceAnswer_of_answers {s : State} {a : SourceAnswer} {rest : List SourceAnswer}
    (h : s.dec.answers = a :: rest) : sourceAnswer s = a := by
  rw [sourceAnswer, h, List.headD_cons]

/-! ### The command (R221) -/

theorem exec_read_idle {s : State} (hidle : s.dec.state = .idle) :
    exec .read s = .next (startReading s) := by
  simp only [exec, execRead, hidle]

theorem exec_read_busy {s : State} (hbusy : s.dec.state ≠ .idle) :
    exec .read s = .refused .decoderBusy := by
  cases hs : s.dec.state with
  | idle => exact absurd hs hbusy
  | start | lenHi | lenLo | body => simp only [exec, execRead, hs]

/-- R36: without a request an idle DEC waits. -/
theorem step_decWaits {s : State} (hturn : nextTurn s = .dec) (hidle : s.dec.state = .idle)
    (hreq : s.dec.requests = 0) : step s = .next (popTurn s) := by
  rw [step_of_decTurn hturn]
  simp only [decStep, popTurn_dec, hidle, hreq]

theorem step_readRequest {s : State} (hturn : nextTurn s = .dec) (hidle : s.dec.state = .idle)
    (hreq : 0 < s.dec.requests) : step s = exec .read (popRead (popTurn s)) := by
  obtain ⟨n, hn⟩ := Nat.exists_eq_add_of_lt hreq
  rw [step_of_decTurn hturn]
  simp only [decStep, popTurn_dec, hidle, hn, Nat.zero_add]

theorem step_readAccepted {s : State} (hturn : nextTurn s = .dec) (hidle : s.dec.state = .idle)
    (hreq : 0 < s.dec.requests) : step s = .next (startReading (popRead (popTurn s))) :=
  (step_readRequest hturn hidle hreq).trans (exec_read_idle hidle)

/-! ### A byte from the source (R55, R222) -/

/-- The state in which DEC, on its turn, has been given a byte. -/
def byteTaken (s : State) : State := sourceGave (sourcePolled (popTurn s))

@[simp] theorem byteTaken_config (s : State) : (byteTaken s).config = s.config := rfl
@[simp] theorem byteTaken_enc (s : State) : (byteTaken s).enc = s.enc := rfl
@[simp] theorem byteTaken_dec (s : State) : (byteTaken s).dec = { s.dec with
    answers := s.dec.answers.tail, out := none, consumed := s.dec.consumed + 1 } := rfl
@[simp] theorem byteTaken_schedule (s : State) : (byteTaken s).schedule = s.schedule.tail := rfl

section
variable {s : State} {b : Byte}

theorem step_lenHiByte (hturn : nextTurn s = .dec) (hstate : s.dec.state = .lenHi)
    (hans : sourceAnswer s = .ready b) :
    step s = .next (gotoDec .lenLo (setDecLen (b.setWidth 16 * 256) (byteTaken s))) := by
  rw [step_of_decTurn hturn]
  simp only [decStep, popTurn_dec, hstate]
  exact decPoll_ready hans

theorem step_lenLoByte (hturn : nextTurn s = .dec) (hstate : s.dec.state = .lenLo)
    (hans : sourceAnswer s = .ready b) : step s = readyLenLo b (byteTaken s) := by
  rw [step_of_decTurn hturn]
  simp only [decStep, popTurn_dec, hstate]
  exact decPoll_ready hans

theorem step_bodyByte (hturn : nextTurn s = .dec) (hstate : s.dec.state = .body)
    (hans : sourceAnswer s = .ready b) : step s = readyBody b (byteTaken s) := by
  rw [step_of_decTurn hturn]
  simp only [decStep, popTurn_dec, hstate]
  exact decPoll_ready hans

end

/-! ### The length bytes (R226 to R229) -/

/-- R226: the high byte, placed. -/
theorem toNat_lenHi (hi : Byte) : (hi.setWidth 16 * 256 : U16).toNat = hi.toNat * 256 := by
  have := hi.isLt
  simp [BitVec.toNat_mul]
  omega

/-- R227: the low byte joins a high byte without a carry. -/
theorem toNat_lenLo {len : U16} {hi : Byte} (hlen : len.toNat = hi.toNat * 256) (lo : Byte) :
    (len + lo.setWidth 16).toNat = hi.toNat * 256 + lo.toNat := by
  have := hi.isLt
  have := lo.isLt
  rw [BitVec.toNat_add, BitVec.toNat_setWidth, hlen]
  omega

/-- R228: the length and its checksum byte do not fit the buffer. -/
theorem readyLenLo_overflow {s : State} {lo : Byte}
    (hcap : s.config.cap < (s.dec.len + lo.setWidth 16).toNat + 1) :
    readyLenLo lo s =
      .next (raise (.dec .overflow) (setDecLen (s.dec.len + lo.setWidth 16) s)) :=
  if_pos (decide_eq_true hcap)

/-- R229: the body begins. -/
theorem readyLenLo_fits {s : State} {lo : Byte}
    (hcap : (s.dec.len + lo.setWidth 16).toNat + 1 ≤ s.config.cap) :
    readyLenLo lo s = .next (startBody (setDecLen (s.dec.len + lo.setWidth 16) s)) :=
  if_neg (by simpa [decOverflows] using hcap)

/-! ### Body bytes and completion (R230 to R237) -/

@[simp] theorem bodyReceived_dec (b : Byte) (s : State) : (bodyReceived b s).dec = { s.dec with
    answers := s.dec.answers.tail, out := none, consumed := s.dec.consumed + 1,
    buf := s.dec.buf.write s.dec.idx.toNat b, sum := s.dec.sum + b, idx := s.dec.idx + 1 } := rfl

/-- R230: the step that is answered with a body byte before the last. -/
theorem step_innerBodyByte {s : State} {b : Byte} (hturn : nextTurn s = .dec)
    (hbody : s.dec.state = .body) (hans : sourceAnswer s = .ready b)
    (hidx : s.dec.idx.toNat < s.dec.len.toNat) (hcap : s.dec.len.toNat + 1 ≤ s.config.cap) :
    step s = .next (bodyReceived b s) :=
  (step_bodyByte hturn hbody hans).trans (readyBody_more b hidx hcap)

theorem completeFrame_badChecksum {s : State} (hsum : s.dec.sum ≠ 0xFF#8) :
    completeFrame s = .next (raise (.dec (.badChecksum s.dec.sum)) s) :=
  if_neg (by simpa [checksumValid] using hsum)

/-- R239: the outcome of a frame without a payload. -/
theorem readOutcome_nil (c : Config) (sum : Byte) : readOutcome c [] sum =
    .failed (if sum = 0xFF then .malformed .emptyPayload else .badChecksum sum) := by
  by_cases hsum : sum = 0xFF#8
  · simp [readOutcome, hsum, parse, outcomeOf]
  · simp [readOutcome, hsum]

/-- A right checksum runs the instruction that the payload in `DEC_BUF` decodes to (R235). -/
theorem completeFrame_decoded {s : State} {p : List Byte} {i : Instr} (hp : Holds s.dec.buf p)
    (hlen : p.length = s.dec.len.toNat) (hcap : p.length ≤ s.config.cap)
    (hsum : s.dec.sum = 0xFF#8) (hd : decodeInbound p = .ok i) : completeFrame s = exec i s := by
  have hload := hp.loadRange_eq (n := decBufSize s.config) hcap
  rw [hlen] at hload
  simp only [completeFrame, checksumValid, hsum, decide_true, if_true, fetchInbound, hload, hd]

/-- R233 to R237: completion ends the READ as the spec's parser and checksum rule say, and writes
the sequencer, the outcome and `dec_frame` alone. -/
theorem completeFrame_ends {s : State} {p : List Byte} (hp : Holds s.dec.buf p)
    (hlen : p.length = s.dec.len.toNat) (hcap : p.length ≤ s.config.cap)
    (hframe : s.dec.frame = none) :
    completeFrame s = .next { s with dec := { s.dec with
      state := .idle
      out := some (readOutcome s.config p s.dec.sum)
      frame := deliveredFrame (readOutcome s.config p s.dec.sum) } } := by
  rw [completeFrame_eq hp hlen hcap]
  cases readOutcome s.config p s.dec.sum with
  | delivered f => rfl
  | failed e => simp only [raise, deliveredFrame, ← hframe]

/-- R221: DEC holds no delivered value while it polls. -/
theorem Machine.DecInv.frame_eq_none {c : Config} {d : Dec} (h : DecInv c d)
    (hactive : d.state ≠ .idle) : d.frame = none := by
  refine Option.eq_none_iff_forall_ne_some.mpr fun f hf => ?_
  have hout := (h.frameIsOutcome f).mp hf
  rw [h.active hactive] at hout
  cases hout

/-! ### The statements -/

/-- Settles O22: `startReading` is the accepting step. -/
theorem readStartsAFreshFrame : Obligations.ReadStartsAFreshFrame :=
  fun _ hidle => exec_read_idle hidle

/-- Settles O26: one step for each length byte, and the two ways of the capacity test. -/
theorem lengthBytesThenBodyOrOverflow : Obligations.LengthBytesThenBodyOrOverflow := by
  intro s hi lo rest order hstate hans hsched
  have hhi := step_lenHiByte (nextTurn_of_schedule hsched) hstate (sourceAnswer_of_answers hans)
  generalize hu : gotoDec .lenLo (setDecLen (hi.setWidth 16 * 256) (byteTaken s)) = u at hhi
  have hlo : step u = readyLenLo lo (byteTaken u) :=
    step_lenLoByte (nextTurn_of_schedule (order := order) (by simp [← hu, hsched])) (by simp [← hu])
      (sourceAnswer_of_answers (rest := rest) (by simp [← hu, hans]))
  have hlen : (u.dec.len + lo.setWidth 16).toNat = hi.toNat * 256 + lo.toNat :=
    toNat_lenLo (by rw [← hu]; exact toNat_lenHi hi) lo
  have hconfig : u.config = s.config := by simp [← hu]
  rw [run_of_step hhi]
  rcases Nat.lt_or_ge s.config.cap (hi.toNat * 256 + lo.toNat + 1) with hcap | hcap
  · rw [← hlen, ← hconfig] at hcap
    refine ⟨_, run_of_step (hlo.trans (readyLenLo_overflow hcap)) 0, hlen, ?_⟩
    rw [hlen, hconfig] at hcap
    simp [← hu, hans, hsched]
    omega
  · rw [← hlen, ← hconfig] at hcap
    refine ⟨_, run_of_step (hlo.trans (readyLenLo_fits hcap)) 0, hlen, ?_⟩
    rw [hlen, hconfig] at hcap
    simp [← hu, hans, hsched]
    omega

/-- Settles O27: the byte is stored, and the other cells are those of the write. -/
theorem bodyByteIsStoredAtItsIndex : Obligations.BodyByteIsStoredAtItsIndex := by
  intro s b hturn hbody hans hidx hcap
  exact ⟨_, step_innerBodyByte hturn hbody hans hidx hcap, hbody, rfl, read_write_same _ _ _,
    fun a ha => read_write_other _ _ ha, rfl,
    bodyStored_idx (s := byteTaken s) b _ (Nat.le_of_lt hidx), rfl, rfl, rfl, rfl⟩

/-- Settles O28: the byte is stored and summed, and the test of the sum fails. -/
theorem wrongSumIsBadChecksum : Obligations.WrongSumIsBadChecksum := by
  intro s b hturn hbody hans hidx hcap hsum
  have hstep := (step_lastBodyByte hturn hbody hans hidx hcap).trans
    (completeFrame_badChecksum hsum)
  exact ⟨_, hstep, rfl, rfl, rfl, rfl, rfl⟩

/-- Settles O29: the payload is empty, and the sum is the checksum byte itself. -/
theorem emptyPayloadIsMalformed : Obligations.EmptyPayloadIsMalformed := by
  intro s c hturn hbody hans hlen hidx hsum hcap
  have hlen' : s.dec.len.toNat = 0 := by rw [hlen]; rfl
  have hidx' : s.dec.idx.toNat = 0 := by rw [hidx]; rfl
  have hsum' : (bodyReceived c s).dec.sum = c := by
    show s.dec.sum + c = c
    simp [hsum]
  have hstep := (step_lastBodyByte hturn hbody hans (hidx'.trans hlen'.symm) (by omega)).trans
    (completeFrame_eq (p := []) (fun i hi => absurd hi (Nat.not_lt_zero i)) hlen'.symm
      (Nat.zero_le _))
  rw [hsum', readOutcome_nil] at hstep
  exact ⟨_, hstep, rfl, rfl, rfl⟩

/-- Settles O30: the two ports, and the body that completes with a right checksum. -/
theorem stepRunsTheDecodedInstruction : Obligations.StepRunsTheDecodedInstruction := by
  refine ⟨fun s f later hturn hidle hreq => ?_, fun s => step_readRequest, ?_⟩
  · rw [step_encodeRequest hturn hidle hreq, popEncode, popTurn_enc, hreq]
    rfl
  · intro s b p i hturn hbody hans hidx hcap hlen hp hsum hd
    exact (step_lastBodyByte hturn hbody hans hidx hcap).trans
      (completeFrame_decoded (bodyReceived_holds b hp (by omega)) hlen (hlen ▸ hcap.le) hsum hd)

/-- Settles O39: the invariant gives the payload and its sum, and completion ends on them. -/
theorem completionRefinesTheSpecParser : Obligations.CompletionRefinesTheSpecParser := by
  intro s b hinv hturn hbody hans hidx
  obtain ⟨hcap, -, p, hlen, hp, hsum⟩ := hinv.dec.inBody hbody
  have hactive : s.dec.state ≠ .idle := by simp [hbody]
  have hstep := (step_lastBodyByte hturn hbody hans hidx hcap).trans
    (completeFrame_ends (bodyReceived_holds b hp hlen.le) (hlen.trans hidx)
      (show p.length ≤ s.config.cap by omega) (hinv.dec.frame_eq_none hactive))
  have hsum' : (bodyReceived b s).dec.sum = sum8 (p ++ [b]) := by
    show s.dec.sum + b = _
    simp [hsum]
  rw [hsum'] at hstep
  exact ⟨p, _, hlen.trans hidx, hp, hstep, rfl, rfl, rfl, rfl, rfl⟩

end Sys2Proof

/-! SUPPORT. Proofs about the encoder (43_encoder.md): the accepting step, the poll that is answered
Accepted, and whole ENCODE commands on the answers of the sink. -/

namespace Sys2Proof

open Sys2Proof.Machine

/-! ### The accepting step (R190 to R194) -/

section
variable {f : TxRequest} {s : State}

/-- R140: the outbound TXREQUEST has no step of its own. -/
theorem exec_txrequest_outbound (f : TxRequest) (s : State) :
    exec (.txrequest (.outbound f)) s = exec (.encode f) s := rfl

theorem exec_encode_busy (hbusy : s.enc.state ≠ .idle) :
    exec (.encode f) s = .refused .encoderBusy := by
  cases hs : s.enc.state with
  | idle => exact absurd hs hbusy
  | send => simp only [exec, execEncode, acceptOutbound, hs]

theorem exec_encode_overflow (hidle : s.enc.state = .idle) (hcap : s.config.cap < encodedLength f) :
    exec (.encode f) s = .next (raise (.enc .overflow) s) := by
  simp only [exec, execEncode, acceptOutbound, hidle]
  exact if_pos (decide_eq_true hcap)

/-- R193, R194: a frame that passes the length test is staged from index 0 on. -/
theorem exec_encode_staged (hidle : s.enc.state = .idle) (hcap : encodedLength f ≤ s.config.cap) :
    ∃ buf, storeAll (encBufSize s.config) s.enc.buf 0 (wire f) = .ok buf ∧
      exec (.encode f) s = .next (startSending f buf s) := by
  obtain ⟨t, ht⟩ := acceptOutbound_next f hidle
  obtain ⟨-, ⟨hover, -⟩ | ⟨-, buf, hbuf, rfl⟩⟩ := acceptOutbound_cases ht
  · exact absurd hcap hover.not_ge
  · exact ⟨buf, hbuf, ht⟩

/-- R193: both length registers hold their numbers exactly. -/
theorem toNat_startSending_lengths (buf : Memory) (hlen : encodedLength f ≤ 65535) :
    (startSending f buf s).enc.len.toNat = encodedLength f ∧
    (startSending f buf s).enc.total.toNat = encodedLength f + 4 := by
  simp only [startSending_enc, BitVec.toNat_ofNat]
  omega

end

/-- The cells of a buffer in which a sequence of bytes has been staged from index 0 on. -/
theorem read_storeAll_zero {n : Nat} {m m' : Memory} {bs : List Byte}
    (h : storeAll n m 0 bs = .ok m') :
    Holds m' bs ∧ ∀ a, bs.length ≤ a → m'.read a = m.read a := by
  obtain ⟨hin, hout, -, -⟩ := storeAll_cases h
  exact ⟨fun i hi => by simpa using hin i hi, fun a ha => hout a (.inr (by omega))⟩

/-- R36: without a request an idle ENC waits. -/
theorem step_encWaits {s : State} (hturn : nextTurn s = .enc) (hidle : s.enc.state = .idle)
    (hreq : s.enc.requests = []) : step s = .next (popTurn s) := by
  rw [step_of_encTurn hturn]
  simp only [encStep, popTurn_enc, hidle, hreq]

theorem run_encWaits {s : State} {n : Nat} {order : List Turn} (hidle : s.enc.state = .idle)
    (hreq : s.enc.requests = []) (hsched : s.schedule = List.replicate n .enc ++ order) :
    Sys2Proof.core.run n s = .next { s with schedule := order } := by
  induction n generalizing s with
  | zero =>
    obtain rfl : s.schedule = order := hsched
    rfl
  | succ n ih =>
    rw [run_of_step (step_encWaits (nextTurn_of_schedule hsched) hidle hreq)]
    exact ih hidle hreq (by rw [popTurn_schedule, hsched]; rfl)

/-! ### The poll that is answered Accepted (R197) -/

/-- The state in which ENC, on its turn, has had the byte `b` accepted. -/
def byteSent (b : Byte) (s : State) : State := advanceEnc (sinkTook b (sinkPolled (popTurn s)))

@[simp] theorem byteSent_config (b : Byte) (s : State) : (byteSent b s).config = s.config := rfl
@[simp] theorem byteSent_dec (b : Byte) (s : State) : (byteSent b s).dec = s.dec := rfl
@[simp] theorem byteSent_enc (b : Byte) (s : State) : (byteSent b s).enc = { s.enc with
    idx := s.enc.idx + 1, answers := s.enc.answers.tail, accepted := s.enc.accepted ++ [b],
    out := none } := rfl
@[simp] theorem byteSent_schedule (b : Byte) (s : State) :
    (byteSent b s).schedule = s.schedule.tail := rfl

section
variable {s : State} {b : Byte}

theorem step_sinkAccepted_last (hturn : nextTurn s = .enc)
    (hidx : s.enc.idx.toNat < s.config.cap + 4) (hoffer : s.sinkOffer = some b)
    (hans : sinkAnswer s = .accepted) (hlast : s.enc.idx + 1 = s.enc.total) :
    step s = .next (finishEncode (byteSent b s)) := by
  obtain ⟨-, -, hend, -⟩ := encPoll_answers (s := popTurn s) (load_offered hidx hoffer)
  rw [step_offering hturn hoffer, hend hans hlast]
  rfl

theorem step_sinkAccepted_more (hturn : nextTurn s = .enc)
    (hidx : s.enc.idx.toNat < s.config.cap + 4) (hoffer : s.sinkOffer = some b)
    (hans : sinkAnswer s = .accepted) (hmore : s.enc.idx + 1 ≠ s.enc.total) :
    step s = .next (byteSent b s) := by
  obtain ⟨-, -, -, hgo⟩ := encPoll_answers (s := popTurn s) (load_offered hidx hoffer)
  rw [step_offering hturn hoffer, hgo hans hmore]
  rfl

end

theorem sinkAnswer_of_answers {s : State} {a : SinkAnswer} {rest : List SinkAnswer}
    (h : s.enc.answers = a :: rest) : sinkAnswer s = a := by
  rw [sinkAnswer, h, List.headD_cons]

/-! ### In the middle of ENCODE -/

/-- ENCODE has ended, with `Ok` or with an error among the answers. -/
def EncodeEnded (answers : List SinkAnswer) (s : State) : Prop :=
  s.enc.state = .idle ∧
    (s.enc.out = some .ok ∨
      ∃ e, SinkAnswer.error e ∈ answers ∧ s.enc.out = some (.failed (.other e)))

theorem EncodeEnded.cons {answers : List SinkAnswer} {s : State} (h : EncodeEnded answers s)
    (a : SinkAnswer) : EncodeEnded (a :: answers) s := by
  obtain ⟨hidle, hok | ⟨e, he, hout⟩⟩ := h
  · exact ⟨hidle, .inl hok⟩
  · exact ⟨hidle, .inr ⟨e, List.mem_cons_of_mem _ he, hout⟩⟩

/-- `s` is sending the frame `f`, of which `k` bytes have been accepted, and everything that ENCODE
leaves alone is as in `s₀`, the state in which the request had left its port. -/
structure Sending (s₀ : State) (f : TxRequest) (k : Nat) (s : State) : Prop where
  state : s.enc.state = .send
  len : s.enc.len.toNat = encodedLength f
  total : s.enc.total.toNat = encodedLength f + 4
  idx : s.enc.idx.toNat = k
  more : k < encodedLength f + 4
  sum : s.enc.sum = sum8 (payloadOf f)
  fits : encodedLength f ≤ s₀.config.cap
  staged : Holds s.enc.buf (wire f)
  accepted : s.enc.accepted = s₀.enc.accepted ++ (wire f).take k
  out : s.enc.out = none
  requests : s.enc.requests = s₀.enc.requests
  dec : s.dec = s₀.dec
  config : s.config = s₀.config

/-- R193, R194: what the accepting step leaves is the beginning of a transmission. -/
theorem sending_startSending {s : State} {f : TxRequest} {buf : Memory} (hwf : s.config.wf)
    (hcap : encodedLength f ≤ s.config.cap) (hbuf : Holds buf (wire f)) :
    Sending s f 0 (startSending f buf s) := by
  obtain ⟨⟨-, hmax⟩, -⟩ := hwf
  obtain ⟨hlen, htotal⟩ := toNat_startSending_lengths (s := s) buf (Nat.le_trans hcap hmax)
  exact { state := rfl, len := hlen, total := htotal, idx := by simp, more := Nat.succ_pos _,
          sum := by rw [startSending_enc],
          fits := hcap, staged := hbuf, accepted := by simp, out := rfl, requests := rfl,
          dec := rfl, config := rfl }

/-- R191 to R194: the accepting step. -/
theorem exists_sending_of_accepted {s : State} {f : TxRequest} {later : List TxRequest}
    (hwf : s.config.wf) (hturn : nextTurn s = .enc) (hidle : s.enc.state = .idle)
    (hreq : s.enc.requests = f :: later) (hcap : encodedLength f ≤ s.config.cap) :
    ∃ t, step s = .next t ∧ Sending (popEncode (popTurn s)) f 0 t ∧
      t.enc.answers = s.enc.answers ∧ t.schedule = s.schedule.tail := by
  obtain ⟨buf, hbuf, hexec⟩ := exec_encode_staged (s := popEncode (popTurn s)) hidle hcap
  obtain ⟨hstaged, -⟩ := read_storeAll_zero hbuf
  exact ⟨_, (step_encodeRequest hturn hidle hreq).trans hexec,
    sending_startSending hwf hcap hstaged, rfl, rfl⟩

namespace Sending

variable {s₀ s : State} {f : TxRequest} {k : Nat}

/-- R196: the byte at `enc_idx` is offered. -/
theorem exists_offer (h : Sending s₀ f k s) :
    ∃ b, (wire f)[k]? = some b ∧ s.sinkOffer = some b := by
  have hk : k < (wire f).length := by rw [length_wire]; exact h.more
  refine ⟨(wire f)[k], List.getElem?_eq_getElem hk, sinkOffer_eq_some_iff.mpr ⟨h.state, ?_⟩⟩
  rw [h.idx, h.staged k hk, List.getElem?_eq_getElem hk]

theorem idx_lt (h : Sending s₀ f k s) : s.enc.idx.toNat < s.config.cap + 4 := by
  have := h.more
  have := h.fits
  rw [h.idx, h.config]
  omega

theorem toNat_idx_succ (h : Sending s₀ f k s) : (s.enc.idx + 1).toNat = k + 1 := by
  have := h.more
  have := s.enc.total.isLt
  have := h.total
  rw [BitVec.toNat_add, h.idx, show (1 : U17).toNat = 1 from rfl]
  omega

theorem idx_succ_eq_total_iff (h : Sending s₀ f k s) :
    s.enc.idx + 1 = s.enc.total ↔ k + 1 = encodedLength f + 4 := by
  rw [← BitVec.toNat_inj, h.toNat_idx_succ, h.total]

theorem accepted_succ (h : Sending s₀ f k s) {b : Byte} (hb : (wire f)[k]? = some b) :
    (byteSent b s).enc.accepted = s₀.enc.accepted ++ (wire f).take (k + 1) := by
  rw [byteSent_enc, h.accepted, List.append_assoc, List.take_add_one, hb, Option.toList_some]

/-- R198: NotReady leaves ENC where it is. -/
theorem step_notReady (h : Sending s₀ f k s) (hturn : nextTurn s = .enc)
    (hans : sinkAnswer s = .notReady) :
    ∃ t, step s = .next t ∧ Sending s₀ f k t ∧ t.enc.answers = s.enc.answers.tail ∧
      t.schedule = s.schedule.tail := by
  obtain ⟨b, -, hoffer⟩ := h.exists_offer
  exact ⟨_, step_sinkNotReady hturn h.idx_lt hoffer hans, { h with out := rfl }, rfl, rfl⟩

/-- R197: a byte before the last is accepted. -/
theorem step_more (h : Sending s₀ f k s) (hturn : nextTurn s = .enc)
    (hans : sinkAnswer s = .accepted) (hmore : k + 1 < encodedLength f + 4) :
    ∃ t, step s = .next t ∧ Sending s₀ f (k + 1) t ∧ t.enc.answers = s.enc.answers.tail ∧
      t.schedule = s.schedule.tail := by
  obtain ⟨b, hb, hoffer⟩ := h.exists_offer
  have hne : s.enc.idx + 1 ≠ s.enc.total := fun heq =>
    hmore.ne (h.idx_succ_eq_total_iff.mp heq)
  exact ⟨_, step_sinkAccepted_more hturn h.idx_lt hoffer hans hne,
    { h with idx := h.toNat_idx_succ, more := hmore, accepted := h.accepted_succ hb, out := rfl },
    rfl, rfl⟩

/-- R197, D33: the last byte is accepted, and the command ends with `Ok`. -/
theorem step_last (h : Sending s₀ f k s) (hturn : nextTurn s = .enc)
    (hans : sinkAnswer s = .accepted) (hlast : k + 1 = encodedLength f + 4) :
    ∃ t, step s = .next t ∧ t.enc.state = .idle ∧ t.enc.out = some .ok ∧
      t.enc.accepted = s₀.enc.accepted ++ wire f ∧ t.enc.answers = s.enc.answers.tail ∧
      t.enc.requests = s₀.enc.requests ∧ t.dec = s₀.dec ∧ t.config = s₀.config ∧
      t.schedule = s.schedule.tail := by
  obtain ⟨b, hb, hoffer⟩ := h.exists_offer
  have hall : (byteSent b s).enc.accepted = s₀.enc.accepted ++ wire f := by
    rw [h.accepted_succ hb, hlast, ← length_wire, List.take_length]
  exact ⟨_, step_sinkAccepted_last hturn h.idx_lt hoffer hans (h.idx_succ_eq_total_iff.mpr hlast),
    rfl, rfl, hall, rfl, h.requests, h.dec, h.config, rfl⟩

/-- R199: an error ends the command, and what was accepted stays sent. -/
theorem step_error (h : Sending s₀ f k s) (hturn : nextTurn s = .enc) {e : SinkErr}
    (hans : sinkAnswer s = .error e) :
    ∃ t, step s = .next t ∧ t.enc.state = .idle ∧ t.enc.out = some (.failed (.other e)) ∧
      t.enc.idx.toNat = k ∧ t.enc.accepted = s₀.enc.accepted ++ (wire f).take k ∧
      t.enc.answers = s.enc.answers.tail ∧ t.enc.requests = s₀.enc.requests ∧ t.dec = s₀.dec ∧
      t.schedule = s.schedule.tail := by
  obtain ⟨b, -, hoffer⟩ := h.exists_offer
  exact ⟨_, step_sinkError hturn h.idx_lt hoffer hans, rfl, rfl, h.idx, h.accepted, rfl, h.requests,
    h.dec, rfl⟩

/-- A run on Accepted and NotReady answers that do not end the command. -/
theorem run_sending (h : Sending s₀ f k s) {answers rest : List SinkAnswer} {order : List Turn}
    (hans : s.enc.answers = answers ++ rest)
    (hall : ∀ a ∈ answers, a = .accepted ∨ a = .notReady)
    (hcount : k + answers.count .accepted < encodedLength f + 4)
    (hsched : s.schedule = List.replicate answers.length .enc ++ order) :
    ∃ t, Sys2Proof.core.run answers.length s = .next t ∧
      Sending s₀ f (k + answers.count .accepted) t ∧ t.enc.answers = rest ∧
      t.schedule = order := by
  induction answers generalizing s k with
  | nil => exact ⟨s, rfl, h, hans, hsched⟩
  | cons a answers ih =>
    have hturn : nextTurn s = .enc := nextTurn_of_schedule hsched
    have hhead : sinkAnswer s = a := sinkAnswer_of_answers hans
    have htail : ∀ a ∈ answers, a = .accepted ∨ a = .notReady := fun a ha =>
      hall a (List.mem_cons_of_mem _ ha)
    rcases hall a List.mem_cons_self with rfl | rfl
    · rw [List.count_cons_self, ← Nat.add_assoc, Nat.add_right_comm] at hcount ⊢
      obtain ⟨u, hstep, hu, huans, husched⟩ := h.step_more hturn hhead (by omega)
      rw [List.length_cons, run_of_step hstep]
      exact ih hu (by rw [huans, hans]; rfl) htail hcount (by rw [husched, hsched]; rfl)
    · rw [List.count_cons_of_ne (by simp)] at hcount ⊢
      obtain ⟨u, hstep, hu, huans, husched⟩ := h.step_notReady hturn hhead
      rw [List.length_cons, run_of_step hstep]
      exact ih hu (by rw [huans, hans]; rfl) htail hcount (by rw [husched, hsched]; rfl)

/-- A run on any answers, with no other request at the port: ENCODE ends, or every answer other than
NotReady has sent a byte. -/
theorem run_ends_or_sends (h : Sending s₀ f k s) (hreq : s₀.enc.requests = [])
    {answers : List SinkAnswer} {order : List Turn} (hans : s.enc.answers = answers)
    (hsched : s.schedule = List.replicate answers.length .enc ++ order) :
    ∃ t, Sys2Proof.core.run answers.length s = .next t ∧
      (EncodeEnded answers t ∨ Sending s₀ f (k + answers.countP (· ≠ .notReady)) t) := by
  induction answers generalizing s k with
  | nil => exact ⟨s, rfl, .inr h⟩
  | cons a answers ih =>
    have hturn : nextTurn s = .enc := nextTurn_of_schedule hsched
    have hhead : sinkAnswer s = a := sinkAnswer_of_answers hans
    cases a with
    | notReady =>
      obtain ⟨u, hstep, hu, huans, husched⟩ := h.step_notReady hturn hhead
      obtain ⟨t, hrun, ht⟩ := ih hu (by rw [huans, hans]; rfl) (by rw [husched, hsched]; rfl)
      rw [List.countP_cons_of_neg (by simp)]
      exact ⟨t, (run_of_step hstep _).trans hrun, ht.imp_left (·.cons _)⟩
    | error e =>
      obtain ⟨u, hstep, hidle, hout, -, -, -, hureq, -, husched⟩ := h.step_error hturn hhead
      have hwait := run_encWaits hidle (hureq.trans hreq) (by rw [husched, hsched]; rfl)
      exact ⟨_, (run_of_step hstep _).trans hwait,
        .inl ⟨hidle, .inr ⟨e, List.mem_cons_self, hout⟩⟩⟩
    | accepted =>
      by_cases hlast : k + 1 = encodedLength f + 4
      · obtain ⟨u, hstep, hidle, hout, -, -, hureq, -, -, husched⟩ := h.step_last hturn hhead hlast
        have hwait := run_encWaits hidle (hureq.trans hreq) (by rw [husched, hsched]; rfl)
        exact ⟨_, (run_of_step hstep _).trans hwait, .inl ⟨hidle, .inl hout⟩⟩
      · obtain ⟨u, hstep, hu, huans, husched⟩ := h.step_more hturn hhead
          (Nat.lt_of_le_of_ne h.more hlast)
        obtain ⟨t, hrun, ht⟩ := ih hu (by rw [huans, hans]; rfl) (by rw [husched, hsched]; rfl)
        rw [List.countP_cons_of_pos (by simp), ← Nat.add_assoc, Nat.add_right_comm]
        exact ⟨t, (run_of_step hstep _).trans hrun, ht.imp_left (·.cons _)⟩

end Sending

/-! ### The statements -/

/-- Settles O13: the length test passes, and the registers hold their numbers exactly. -/
theorem encodeStagesTheWireImage : Obligations.EncodeStagesTheWireImage := by
  intro f s hwf hidle hcap
  obtain ⟨buf, hbuf, hexec⟩ := exec_encode_staged hidle hcap
  obtain ⟨hstaged, habove⟩ := read_storeAll_zero hbuf
  have hsend := sending_startSending hwf hcap hstaged
  exact ⟨_, hexec, (exec_txrequest_outbound f s).trans hexec, hsend.state, hsend.len, hsend.total,
    rfl, hsend.sum, hsend.out, hstaged, habove, rfl, rfl, rfl, rfl, rfl, rfl⟩

/-- Settles O14: `raise` writes the sequencer, which is idle already, and the outcome. -/
theorem encodeOverflowWritesNothing : Obligations.EncodeOverflowWritesNothing := by
  intro f s hidle hcap
  have hexec := exec_encode_overflow hidle hcap
  rw [raise, ← hidle] at hexec
  exact ⟨hexec, (exec_txrequest_outbound f s).trans hexec⟩

/-- Settles O15: the step is `raise`, or stages the frame from index 0 on. -/
theorem encodeFrame : Obligations.EncodeFrame := by
  intro f s t hexec
  have haccept : acceptOutbound f s = .next t := 
    hexec.elim id (exec_txrequest_outbound f s).symm.trans
  obtain ⟨hidle, ⟨-, rfl⟩ | ⟨hcap, buf, hbuf, rfl⟩⟩ := acceptOutbound_cases haccept
  · simp [hidle]
  · obtain ⟨-, habove⟩ := read_storeAll_zero hbuf
    exact ⟨rfl, rfl, rfl, rfl, rfl, rfl, habove, fun hover => absurd hcap hover.not_ge⟩

/-- Settles O16: an idle engine accepts, and a busy one refuses. -/
theorem commandsRefusedExactlyWhenBusy : Obligations.CommandsRefusedExactlyWhenBusy := by
  have hencode : ∀ (f : TxRequest) (s : State),
      exec (.encode f) s = .refused .encoderBusy ↔ s.enc.state ≠ .idle := by
    refine fun f s => ⟨fun hrefused hidle => ?_, exec_encode_busy⟩
    obtain ⟨t, ht⟩ := acceptOutbound_next f hidle
    cases ht.symm.trans hrefused
  refine ⟨fun f s => ⟨hencode f s, exec_txrequest_outbound f s ▸ hencode f s⟩,
    fun s => ⟨fun hrefused hidle => ?_, exec_read_busy⟩⟩
  cases (exec_read_idle hidle).symm.trans hrefused

/-- Settles O18: the two ways of the test that every staged byte has been accepted. -/
theorem sinkAcceptedSendsOneByte : Obligations.SinkAcceptedSendsOneByte := by
  intro s b hturn hsend hidx hoffer hans
  by_cases hlast : s.enc.idx + 1 = s.enc.total
  · exact ⟨_, step_sinkAccepted_last hturn hidx hoffer hans hlast, rfl, rfl, rfl,
      fun _ => ⟨rfl, rfl⟩, fun hmore => absurd hlast hmore, rfl, rfl, rfl, rfl, rfl, rfl, rfl⟩
  · exact ⟨_, step_sinkAccepted_more hturn hidx hoffer hans hlast, rfl, rfl, rfl,
      fun h => absurd h hlast, fun _ => ⟨hsend, rfl⟩, rfl, rfl, rfl, rfl, rfl, rfl, rfl⟩

/-- Settles O20: accept, run on all answers but the last, and send the last byte. -/
theorem encodeEmitsExactlyTheFrame : Obligations.EncodeEmitsExactlyTheFrame := by
  intro s f later answers rest order hinv hidle hreq hcap hans hall hcount hlast hsched
  obtain ⟨init, rfl⟩ := List.getLast?_eq_some_iff.mp hlast
  rw [List.length_append, List.length_singleton] at hsched ⊢
  obtain ⟨u, hstep, hu, huans, husched⟩ :=
    exists_sending_of_accepted hinv.config (nextTurn_of_schedule hsched) hidle hreq hcap
  rw [List.count_append, List.count_singleton_self] at hcount
  rw [hsched, tail_replicate_append, replicate_succ_append] at husched
  obtain ⟨v, hrun, hv, hvans, hvsched⟩ := hu.run_sending (rest := .accepted :: rest)
    (by rw [huans, hans, List.append_assoc]; rfl)
    (fun a ha => hall a (List.mem_append_left _ ha)) (by omega) husched
  obtain ⟨t, hend, htidle, htout, htacc, htans, htreq, htdec, htconfig, htsched⟩ :=
    hv.step_last (nextTurn_of_schedule hvsched) (sinkAnswer_of_answers hvans) (by omega)
  rw [run_of_step hstep]
  exact ⟨t, run_snoc hrun hend, htidle, htout, htacc, by rw [htans, hvans]; rfl,
    htreq.trans (by simp [hreq]), htdec, htconfig, by rw [htsched, hvsched]; rfl⟩

/-- Settles O21: accept, run on the answers before the error, and take it. -/
theorem encodeErrorLeavesAnInitialPart : Obligations.EncodeErrorLeavesAnInitialPart := by
  intro s f later answers rest e order hinv hidle hreq hcap hans hall hcount hsched
  obtain ⟨u, hstep, hu, huans, husched⟩ :=
    exists_sending_of_accepted hinv.config (nextTurn_of_schedule hsched) hidle hreq hcap
  rw [hsched, tail_replicate_append, replicate_succ_append] at husched
  obtain ⟨v, hrun, hv, hvans, hvsched⟩ := hu.run_sending (huans.trans hans) hall (by omega) husched
  obtain ⟨t, hend, htidle, htout, htidx, htacc, htans, -, htdec, -⟩ :=
    hv.step_error (nextTurn_of_schedule hvsched) (sinkAnswer_of_answers hvans)
  rw [Nat.zero_add] at htidx htacc
  rw [run_of_step hstep]
  exact ⟨t, run_snoc hrun hend, htidle, htout, htidx, htacc, by rw [htans, hvans]; rfl, htdec⟩

/-- Settles O57: a run that has not ended has sent a byte for each answer other than NotReady. -/
theorem encodeEndsUnderFairness : Obligations.EncodeEndsUnderFairness := by
  intro s f answers order hinv hidle hreq hcap hans hsched
  obtain ⟨u, hstep, hu, huans, husched⟩ :=
    exists_sending_of_accepted hinv.config (nextTurn_of_schedule hsched) hidle hreq hcap
  rw [hsched, tail_replicate_append] at husched
  obtain ⟨t, hrun, hend⟩ :=
    hu.run_ends_or_sends (by simp [hreq]) (huans.trans hans) husched
  refine ⟨t, (run_of_step hstep _).trans hrun, fun hmany => ?_, fun hnone => ?_⟩
  · rcases hend with ⟨htidle, htout⟩ | ht
    · exact ⟨htidle, htout⟩
    · have := ht.more
      omega
  · have hcount : answers.count .accepted = 0 :=
      List.count_eq_zero.mpr fun hmem => by cases hnone _ hmem
    obtain ⟨v, hrun', hv, -, -⟩ := hu.run_sending (rest := [])
      (by rw [huans, hans, List.append_nil]) (fun a ha => .inr (hnone a ha)) (by omega) husched
    obtain rfl : t = v := Host.Outcome.next.inj (hrun.symm.trans hrun')
    rw [hcount] at hv
    refine ⟨hv.state, BitVec.eq_of_toNat_eq hv.idx, hv.out, ?_⟩
    simpa using hv.accepted

end Sys2Proof

/-! SUPPORT. The invariant of each engine (10_state.md section 10): each has a step in every state
that satisfies it, and the step keeps it. DEC's side is a simulation: what is left of the READ in
progress is what the spec's `readOf` makes of the answers to come. -/

namespace Sys2Proof

open Sys2Proof.Machine

/-! ### ENC -/

theorem encInv_of_idle {c : Config} {e : Enc} (hidle : e.state = .idle) (hwf : e.buf.wf)
    (hrange : InRange (encBufSize c) e.buf) : EncInv c e where
  bufCanonical := hwf
  bufInRange := hrange
  sending := by simp [hidle]

/-- A sending ENC that satisfies its invariant is in the middle of an ENCODE. -/
theorem exists_sending_of_encInv {s : State} (h : EncInv s.config s.enc)
    (hsend : s.enc.state = .send) : ∃ s₀ f, Sending s₀ f s.enc.idx.toNat s := by
  obtain ⟨f, hcap, hlen, htotal, hidx, hsum, hstaged, ⟨before, hacc⟩, hout⟩ := h.sending hsend
  exact ⟨{ s with enc := { s.enc with accepted := before } }, f,
    { state := hsend, len := hlen, total := htotal, idx := rfl, more := htotal ▸ hidx, sum := hsum,
      fits := hcap, staged := hstaged, accepted := hacc.symm, out := hout, requests := rfl,
      dec := rfl, config := rfl }⟩

theorem Sending.encInv {s₀ s : State} {f : TxRequest} {k : Nat} (h : Sending s₀ f k s)
    (hwf : s.enc.buf.wf) (hrange : InRange (encBufSize s.config) s.enc.buf) :
    EncInv s.config s.enc where
  bufCanonical := hwf
  bufInRange := hrange
  sending _ := ⟨f, h.config ▸ h.fits, h.len, h.total, by rw [h.idx, h.total]; exact h.more, h.sum,
    h.staged, by rw [h.idx, h.accepted]; exact List.suffix_append .., h.out⟩

/-- ENC writes its buffer in the accepting step alone, and inside it. -/
theorem encStep_keeps_buf {s t : State} (h : encStep s = .next t) (hwf : s.enc.buf.wf)
    (hrange : InRange (encBufSize s.config) s.enc.buf) :
    t.enc.buf.wf ∧ InRange (encBufSize s.config) t.enc.buf := by
  rcases encStep_cases h with ⟨-, hpoll⟩ | ⟨-, -, rfl⟩ | ⟨f, later, -, -, haccept⟩
  · obtain ⟨b, -, ⟨-, rfl⟩ | ⟨e, -, rfl⟩ | ⟨-, -, rfl⟩ | ⟨-, -, rfl⟩⟩ := encPoll_cases hpoll <;>
      exact ⟨hwf, hrange⟩
  · exact ⟨hwf, hrange⟩
  · obtain ⟨-, ⟨-, rfl⟩ | ⟨-, buf, hbuf, rfl⟩⟩ := acceptOutbound_cases haccept
    · exact ⟨hwf, hrange⟩
    · obtain ⟨-, -, hkeepsWf, hkeepsRange⟩ := storeAll_cases hbuf
      exact ⟨hkeepsWf hwf, hkeepsRange hrange⟩

/-- R321: a sending ENC has a step for each answer, and every answer but NotReady moves it on. -/
theorem Sending.exists_step {s₀ s : State} {f : TxRequest} {k : Nat} (h : Sending s₀ f k s)
    (hturn : nextTurn s = .enc) :
    ∃ t, step s = .next t ∧ ((t.enc.state = .idle ∧ ∃ o, t.enc.out = some o) ∨
      ∃ k', Sending s₀ f k' t ∧ (sinkAnswer s ≠ .notReady → k' = k + 1)) := by
  cases hans : sinkAnswer s with
  | notReady =>
    obtain ⟨t, hstep, ht, -⟩ := h.step_notReady hturn hans
    exact ⟨t, hstep, .inr ⟨k, ht, fun hne => absurd rfl hne⟩⟩
  | error e =>
    obtain ⟨t, hstep, hidle, hout, -⟩ := h.step_error hturn hans
    exact ⟨t, hstep, .inl ⟨hidle, _, hout⟩⟩
  | accepted =>
    by_cases hlast : k + 1 = encodedLength f + 4
    · obtain ⟨t, hstep, hidle, hout, -⟩ := h.step_last hturn hans hlast
      exact ⟨t, hstep, .inl ⟨hidle, _, hout⟩⟩
    · obtain ⟨t, hstep, ht, -⟩ := h.step_more hturn hans (Nat.lt_of_le_of_ne h.more hlast)
      exact ⟨t, hstep, .inr ⟨k + 1, ht, fun _ => rfl⟩⟩

/-- In a state of the invariant ENC has a step, and if it sends after it, it is in the middle of an
ENCODE. -/
theorem exists_encTurn_step {s : State} (hinv : s.Inv) (hturn : nextTurn s = .enc) :
    ∃ t, step s = .next t ∧
      (t.enc.state = .send → ∃ s₀ f k, Sending s₀ f k t) := by
  cases hstate : s.enc.state with
  | send =>
    obtain ⟨s₀, f, hsend⟩ := exists_sending_of_encInv hinv.enc hstate
    obtain ⟨t, hstep, ⟨hidle, -⟩ | ⟨k', ht, -⟩⟩ := hsend.exists_step hturn
    · exact ⟨t, hstep, by simp [hidle]⟩
    · exact ⟨t, hstep, fun _ => ⟨s₀, f, k', ht⟩⟩
  | idle =>
    cases hreq : s.enc.requests with
    | nil => exact ⟨_, step_encWaits hturn hstate hreq, by simp [hstate]⟩
    | cons f later =>
      rcases Nat.lt_or_ge s.config.cap (encodedLength f) with hcap | hcap
      · exact ⟨_, (step_encodeRequest hturn hstate hreq).trans (exec_encode_overflow hstate hcap),
          by simp⟩
      · obtain ⟨t, hstep, ht, -⟩ := exists_sending_of_accepted hinv.config hturn hstate hreq hcap
        exact ⟨t, hstep, fun _ => ⟨_, f, 0, ht⟩⟩

/-- A step of ENC answers a next state and keeps ENC's invariant. -/
theorem exists_encTurn_step_encInv {s : State} (hinv : s.Inv) (hturn : nextTurn s = .enc) :
    ∃ t, step s = .next t ∧ EncInv t.config t.enc := by
  obtain ⟨t, hstep, hsending⟩ := exists_encTurn_step hinv hturn
  have henc : encStep (popTurn s) = .next t := (step_of_encTurn hturn).symm.trans hstep
  obtain ⟨-, hconfig, -⟩ := encStep_frame henc
  obtain ⟨hwf, hrange⟩ := encStep_keeps_buf henc hinv.enc.bufCanonical hinv.enc.bufInRange
  rw [← hconfig] at hrange
  refine ⟨t, hstep, ?_⟩
  cases hstate : t.enc.state with
  | idle => exact encInv_of_idle hstate hwf hrange
  | send =>
    obtain ⟨s₀, f, k, ht⟩ := hsending hstate
    exact ht.encInv hwf hrange

/-! ### DEC: states of the invariant -/

/-- An ended READ, by delivery or by failure. -/
theorem decInv_of_ended {c : Config} {d : Dec} {o : DecOutcome} (hidle : d.state = .idle)
    (hout : d.out = some o) (hframe : d.frame = deliveredFrame o) (hwf : d.buf.wf)
    (hrange : InRange (decBufSize c) d.buf)
    (hdelivered : ∀ f, o = .delivered f → DeliveredInv c d.buf f) : DecInv c d where
  bufCanonical := hwf
  bufInRange := hrange
  highByte := by simp [hidle]
  inBody := by simp [hidle]
  active := by simp [hidle]
  frameIsOutcome f := by rw [hframe, hout]; cases o <;> simp [deliveredFrame]
  delivered f hf := by
    rw [hframe] at hf
    cases o with
    | delivered g => exact hdelivered f (congrArg DecOutcome.delivered (Option.some.inj hf))
    | failed e => cases hf

/-- A READ in progress, or none at all: no value and no outcome. -/
theorem decInv_of_out_none {c : Config} {d : Dec} (hout : d.out = none) (hframe : d.frame = none)
    (hwf : d.buf.wf) (hrange : InRange (decBufSize c) d.buf)
    (hhigh : d.state = .lenLo → d.len.toNat % 256 = 0)
    (hbody : d.state = .body → d.len.toNat + 1 ≤ c.cap ∧ d.idx.toNat ≤ d.len.toNat ∧
      ∃ bs, bs.length = d.idx.toNat ∧ Holds d.buf bs ∧ d.sum = sum8 bs) : DecInv c d where
  bufCanonical := hwf
  bufInRange := hrange
  highByte := hhigh
  inBody := hbody
  active _ := hout
  frameIsOutcome f := by simp [hout, hframe]
  delivered f hf := by simp [hframe] at hf

theorem Machine.DecInv.frame_eq_deliveredFrame {c : Config} {d : Dec} (h : DecInv c d)
    {o : DecOutcome} (hout : d.out = some o) : d.frame = deliveredFrame o := by
  cases o with
  | delivered f => exact (h.frameIsOutcome f).mpr hout
  | failed e =>
    refine Option.eq_none_iff_forall_ne_some.mpr fun f hf => ?_
    cases hout.symm.trans ((h.frameIsOutcome f).mp hf)

/-- R163 to R165, R174: what is parsed from an RXPACKET. -/
theorem parseRxPacket_eq_ok {p : List Byte} {f : Inbound} (h : parseRxPacket p = .ok f) :
    11 < p.length ∧ ∃ r, f = .rxPacket r ∧ r.options &&& 0xDC = 0 ∧ r.data = p.drop 12 := by
  unfold parseRxPacket at h
  split at h
  · cases h
  · next hlong =>
    cases h
    refine ⟨Nat.lt_of_not_le hlong, _, rfl, ?_, rfl⟩
    rw [parRxOpt, BitVec.and_assoc]
    exact BitVec.and_zero

/-- R166 to R169: what is parsed from a TXSTATUS. -/
theorem parseTxStatus_eq_ok {c : Config} {p : List Byte} {f : Inbound}
    (h : parseTxStatus c p = .ok f) :
    ∃ t, f = .transmitStatus t ∧ t.status ∈ c.txStatusKnown ∧ t.discoStatus ∈ c.discoKnown := by
  unfold parseTxStatus at h
  split at h
  · cases h
  · exact ⟨_, checkTxStatus_eq_ok h⟩

/-- What the parser delivers from the bytes of `DEC_BUF` stands in the data window (R165, R173). -/
theorem deliveredInv_of_parse {c : Config} {m : Memory} {p : List Byte} {f : Inbound}
    (hp : Holds m p) (hcap : p.length + 1 ≤ c.cap) (hparse : parse c p = .ok f) :
    DeliveredInv c m f := by
  rcases p with _ | ⟨tag, rest⟩
  · cases hparse
  simp only [parse] at hparse
  split at hparse
  · obtain ⟨hlong, r, rfl, hoptions, hdata⟩ := parseRxPacket_eq_ok hparse
    have hlen : r.data.length = (tag :: rest).length - 12 := by rw [hdata, List.length_drop]
    refine ⟨by omega, hoptions, fun i hi => ?_⟩
    rw [hp (12 + i) (by omega), hdata, List.getElem?_drop]
  · split at hparse
    · obtain ⟨t, rfl, hstatus, hdisco⟩ := parseTxStatus_eq_ok hparse
      exact ⟨hstatus, hdisco⟩
    · cases hparse

theorem readOutcome_eq_delivered {c : Config} {p : List Byte} {sum : Byte} {f : Inbound}
    (h : readOutcome c p sum = .delivered f) : parse c p = .ok f := by
  unfold readOutcome at h
  split at h
  · cases hparse : parse c p with
    | ok g => rw [hparse] at h; cases h; rfl
    | error e => rw [hparse] at h; cases h
  · cases h

/-! ### DEC: what is left of a READ -/

/-- R227 to R229: what the spec does once both length bytes are in. -/
def lengthKnown (c : Config) (hi lo : Byte) (answers : List SourceAnswer) : Option ReadEnd :=
  if hi.toNat * 256 + lo.toNat + 1 > c.cap then some ⟨.failed .overflow, 0, answers⟩
  else readBody c (hi.toNat * 256 + lo.toNat) [] answers

theorem readLength_eq (c : Config) :
    readLength c = awaitByte fun hi => awaitByte (lengthKnown c hi) := rfl

theorem lengthKnown_overflow {c : Config} {hi lo : Byte}
    (hcap : c.cap < hi.toNat * 256 + lo.toNat + 1) :
    lengthKnown c hi lo = fun answers => some ⟨.failed .overflow, 0, answers⟩ :=
  funext fun _ => if_pos hcap

theorem lengthKnown_fits {c : Config} {hi lo : Byte}
    (hcap : hi.toNat * 256 + lo.toNat + 1 ≤ c.cap) :
    lengthKnown c hi lo = readBody c (hi.toNat * 256 + lo.toNat) [] :=
  funext fun _ => if_neg (Nat.not_lt.mpr hcap)

/-- `k` is what the spec makes of the answers still to come, for a READ that DEC has brought to
`d`. -/
inductive RestOfRead (c : Config) (d : Dec) : (List SourceAnswer → Option ReadEnd) → Prop where
  | start (hstate : d.state = .start) : RestOfRead c d (readOf c)
  | lenHi (hstate : d.state = .lenHi) : RestOfRead c d (readLength c)
  | lenLo (hi : Byte) (hstate : d.state = .lenLo) (hlen : d.len.toNat = hi.toNat * 256) :
      RestOfRead c d (awaitByte (lengthKnown c hi))
  | body (got : List Byte) (hstate : d.state = .body) (hgot : got.length = d.idx.toNat)
      (hholds : Holds d.buf got) (hsum : d.sum = sum8 got) :
      RestOfRead c d (readBody c (d.len.toNat - d.idx.toNat) got)

theorem RestOfRead.active {c : Config} {d : Dec} {k : List SourceAnswer → Option ReadEnd}
    (h : RestOfRead c d k) : d.state ≠ .idle := by
  cases h <;> simp [*]

/-- In every polling state of the invariant something is left of a READ. -/
theorem exists_restOfRead {c : Config} {d : Dec} (h : DecInv c d) (hactive : d.state ≠ .idle) :
    ∃ k, RestOfRead c d k := by
  cases hstate : d.state with
  | idle => exact absurd hstate hactive
  | start => exact ⟨_, .start hstate⟩
  | lenHi => exact ⟨_, .lenHi hstate⟩
  | lenLo =>
    have := d.len.isLt
    have := h.highByte hstate
    exact ⟨_, .lenLo (.ofNat 8 (d.len.toNat / 256)) hstate (by rw [BitVec.toNat_ofNat]; omega)⟩
  | body =>
    obtain ⟨-, -, got, hgot, hholds, hsum⟩ := h.inBody hstate
    exact ⟨_, .body got hstate hgot hholds hsum⟩

theorem decPosition_body {d : Dec} (hstate : d.state = .body) :
    decPosition d = 3 + d.idx.toNat := by
  rw [decPosition, hstate]

/-- A byte has brought DEC from `d` to `d'`: the READ has ended as `k` says of all answers, or DEC
is one byte further and `k` is what is left. -/
def ByteRead (c : Config) (d d' : Dec) (k : List SourceAnswer → Option ReadEnd) : Prop :=
  (∃ o, d'.state = .idle ∧ d'.out = some o ∧ k = fun answers => some ⟨o, 0, answers⟩) ∨
  (decPosition d' = decPosition d + 1 ∧ RestOfRead c d' k)

/-- The step of DEC that is answered with a byte, with all that later proofs use of it. -/
def StepsOnByte (s : State) (k : List SourceAnswer → Option ReadEnd) : Prop :=
  ∃ t, step s = .next t ∧ DecInv s.config t.dec ∧ ByteRead s.config s.dec t.dec k ∧
    t.dec.answers = s.dec.answers.tail ∧ t.dec.consumed = s.dec.consumed + 1 ∧
    t.dec.requests = s.dec.requests

section
variable {s : State} {b : Byte} (hinv : DecInv s.config s.dec) (hturn : nextTurn s = .dec)
  (hans : sourceAnswer s = .ready b)
include hinv hturn hans

theorem stepsOnByte_start (hstate : s.dec.state = .start) :
    StepsOnByte s (fun answers =>
      if b = 0x7E#8 then readLength s.config answers else some ⟨.failed .noStart, 0, answers⟩) := by
  have hframe := hinv.frame_eq_none (by simp [hstate])
  have hstep := step_firstByte hturn hstate hans
  by_cases hb : b = startByte
  · subst hb
    exact ⟨_, hstep.trans (readyStart_startByte _),
      decInv_of_out_none rfl hframe hinv.bufCanonical hinv.bufInRange nofun nofun,
      .inr ⟨by simp [decPosition, hstate], .lenHi rfl⟩, rfl, rfl, rfl⟩
  · exact ⟨_, hstep.trans (readyStart_otherByte hb _),
      decInv_of_ended rfl rfl hframe hinv.bufCanonical hinv.bufInRange nofun,
      .inl ⟨_, rfl, rfl, funext fun _ => if_neg hb⟩, rfl, rfl, rfl⟩

theorem stepsOnByte_lenHi (hstate : s.dec.state = .lenHi) :
    StepsOnByte s (awaitByte (lengthKnown s.config b)) := by
  have hframe := hinv.frame_eq_none (by simp [hstate])
  refine ⟨_, step_lenHiByte hturn hstate hans,
    decInv_of_out_none rfl hframe hinv.bufCanonical hinv.bufInRange (fun _ => ?_) nofun,
    .inr ⟨by simp [decPosition, hstate], .lenLo b rfl (toNat_lenHi b)⟩, rfl, rfl, rfl⟩
  show (b.setWidth 16 * 256 : U16).toNat % 256 = 0
  rw [toNat_lenHi, Nat.mul_mod_left]

theorem stepsOnByte_lenLo {hi : Byte} (hstate : s.dec.state = .lenLo)
    (hlen : s.dec.len.toNat = hi.toNat * 256) :
    StepsOnByte s (lengthKnown s.config hi b) := by
  have hframe := hinv.frame_eq_none (by simp [hstate])
  have hstep := step_lenLoByte hturn hstate hans
  have hlen' : ((byteTaken s).dec.len + b.setWidth 16).toNat = hi.toNat * 256 + b.toNat :=
    toNat_lenLo hlen b
  rcases Nat.lt_or_ge s.config.cap (hi.toNat * 256 + b.toNat + 1) with hcap | hcap
  · exact ⟨_, hstep.trans (readyLenLo_overflow (by rw [hlen']; exact hcap)),
      decInv_of_ended rfl rfl hframe hinv.bufCanonical hinv.bufInRange nofun,
      .inl ⟨_, rfl, rfl, lengthKnown_overflow hcap⟩, rfl, rfl, rfl⟩
  · rw [lengthKnown_fits hcap, ← hlen']
    rw [← hlen'] at hcap
    have hnil : Holds s.dec.buf [] := fun i hi => absurd hi (Nat.not_lt_zero i)
    exact ⟨_, hstep.trans (readyLenLo_fits hcap),
      decInv_of_out_none rfl hframe hinv.bufCanonical hinv.bufInRange nofun
        (fun _ => ⟨hcap, Nat.zero_le _, [], rfl, hnil, rfl⟩),
      .inr ⟨by simp [decPosition, hstate], .body [] rfl rfl hnil rfl⟩, rfl, rfl, rfl⟩

theorem stepsOnByte_innerBody {got : List Byte} {n : Nat} (hstate : s.dec.state = .body)
    (hgot : got.length = s.dec.idx.toNat) (hholds : Holds s.dec.buf got)
    (hsum : s.dec.sum = sum8 got)
    (hmore : s.dec.len.toNat - s.dec.idx.toNat = n + 1) :
    StepsOnByte s (readBody s.config n (got ++ [b])) := by
  have hframe := hinv.frame_eq_none (by simp [hstate])
  obtain ⟨hcap, -⟩ := hinv.inBody hstate
  have hidx : (bodyReceived b s).dec.idx.toNat = s.dec.idx.toNat + 1 :=
    bodyStored_idx (s := byteTaken s) b _ (show s.dec.idx.toNat ≤ s.dec.len.toNat by omega)
  have hgot' : (got ++ [b]).length = (bodyReceived b s).dec.idx.toNat := by
    rw [hidx, List.length_append, hgot, List.length_singleton]
  have hholds' : Holds (bodyReceived b s).dec.buf (got ++ [b]) := by
    rw [bodyReceived_dec, ← hgot]
    exact hholds.snoc b
  have hsum' : (bodyReceived b s).dec.sum = sum8 (got ++ [b]) := by simp [hsum]
  have hlen : (bodyReceived b s).dec.len = s.dec.len := rfl
  have hstate' : (bodyReceived b s).dec.state = .body := hstate
  obtain rfl : n = (bodyReceived b s).dec.len.toNat - (bodyReceived b s).dec.idx.toNat := by
    rw [hlen]; omega
  exact ⟨_, step_innerBodyByte hturn hstate hans (by omega) hcap,
    decInv_of_out_none rfl hframe (write_wf _ _ hinv.bufCanonical)
      (write_inRange _ (show s.dec.idx.toNat < s.config.cap by omega) hinv.bufInRange)
      (fun h => by simp [hstate] at h)
      (fun _ => ⟨hcap, by rw [hlen]; omega, got ++ [b], hgot', hholds', hsum'⟩),
    .inr ⟨by rw [decPosition_body hstate, decPosition_body hstate', hidx]; rfl,
      .body (got ++ [b]) hstate' hgot' hholds' hsum'⟩, rfl, rfl, rfl⟩

theorem stepsOnByte_lastBody {got : List Byte} (hstate : s.dec.state = .body)
    (hgot : got.length = s.dec.idx.toNat) (hholds : Holds s.dec.buf got)
    (hsum : s.dec.sum = sum8 got)
    (hlast : s.dec.len.toNat - s.dec.idx.toNat = 0) :
    StepsOnByte s (fun answers =>
      some ⟨readOutcome s.config got (sum8 (got ++ [b])), 0, answers⟩) := by
  have hframe := hinv.frame_eq_none (by simp [hstate])
  obtain ⟨hcap, hle, -⟩ := hinv.inBody hstate
  have hholds' : Holds (bodyReceived b s).dec.buf got := bodyReceived_holds b hholds hgot.le
  have hsum' : (bodyReceived b s).dec.sum = sum8 (got ++ [b]) := by simp [hsum]
  have hstep := (step_lastBodyByte hturn hstate hans (by omega) hcap).trans
    (completeFrame_ends hholds' (show got.length = s.dec.len.toNat by omega)
      (show got.length ≤ s.config.cap by omega) hframe)
  rw [hsum'] at hstep
  exact ⟨_, hstep,
    decInv_of_ended rfl rfl rfl (write_wf _ _ hinv.bufCanonical)
      (write_inRange _ (show s.dec.idx.toNat < s.config.cap by omega) hinv.bufInRange)
      (fun f hf => deliveredInv_of_parse hholds' (show got.length + 1 ≤ s.config.cap by omega)
        (readOutcome_eq_delivered hf)),
    .inl ⟨_, rfl, rfl, rfl⟩, rfl, rfl, rfl⟩

end

/-- R225 to R237: in every polling state the spec awaits a byte, and the step that is answered with
one does what the spec says of it. -/
theorem RestOfRead.exists_stepsOnByte {s : State} {k : List SourceAnswer → Option ReadEnd}
    (hk : RestOfRead s.config s.dec k) (hinv : DecInv s.config s.dec) (hturn : nextTurn s = .dec) :
    ∃ goOn, k = awaitByte goOn ∧ ∀ b, sourceAnswer s = .ready b → StepsOnByte s (goOn b) := by
  cases hk with
  | start hstate => exact ⟨_, rfl, fun b hans => stepsOnByte_start hinv hturn hans hstate⟩
  | lenHi hstate => exact ⟨_, rfl, fun b hans => stepsOnByte_lenHi hinv hturn hans hstate⟩
  | lenLo hi hstate hlen =>
    exact ⟨_, rfl, fun b hans => stepsOnByte_lenLo hinv hturn hans hstate hlen⟩
  | body got hstate hgot hholds hsum =>
    cases htoGo : s.dec.len.toNat - s.dec.idx.toNat with
    | zero =>
      exact ⟨_, rfl, fun b hans =>
        stepsOnByte_lastBody hinv hturn hans hstate hgot hholds hsum htoGo⟩
    | succ n =>
      exact ⟨_, rfl, fun b hans =>
        stepsOnByte_innerBody hinv hturn hans hstate hgot hholds hsum htoGo⟩

/-- The answer NotReady leaves what is left of a READ (R223). -/
theorem RestOfRead.polled {c : Config} {d : Dec} {k : List SourceAnswer → Option ReadEnd}
    (hk : RestOfRead c d k) (answers : List SourceAnswer) :
    RestOfRead c { d with answers := answers, out := none } k := by
  cases hk with
  | start hstate => exact .start hstate
  | lenHi hstate => exact .lenHi hstate
  | lenLo hi hstate hlen => exact .lenLo hi hstate hlen
  | body got hstate hgot hholds hsum => exact .body got hstate hgot hholds hsum

theorem Machine.DecInv.polled {c : Config} {d : Dec} (h : DecInv c d) (hactive : d.state ≠ .idle)
    (answers : List SourceAnswer) : DecInv c { d with answers := answers, out := none } :=
  decInv_of_out_none rfl (h.frame_eq_none hactive) h.bufCanonical h.bufInRange h.highByte h.inBody

theorem Machine.DecInv.failed {c : Config} {d : Dec} (h : DecInv c d) (hactive : d.state ≠ .idle)
    (answers : List SourceAnswer) (e : DecodeError) :
    DecInv c { d with answers := answers, state := .idle, out := some (.failed e) } :=
  decInv_of_ended rfl rfl (h.frame_eq_none hactive) h.bufCanonical h.bufInRange nofun

/-- R321: an active DEC has a step for each answer that keeps its invariant, and every answer but
NotReady moves it on. -/
theorem exists_activeDec_step {s : State} (hinv : DecInv s.config s.dec) (hturn : nextTurn s = .dec)
    (hactive : s.dec.state ≠ .idle) :
    ∃ t, step s = .next t ∧ DecInv s.config t.dec ∧ (sourceAnswer s ≠ .notReady →
      (t.dec.state = .idle ∧ ∃ o, t.dec.out = some o) ∨
      (t.dec.state ≠ .idle ∧ decPosition t.dec = decPosition s.dec + 1)) := by
  cases hans : sourceAnswer s with
  | notReady =>
    exact ⟨_, step_sourceNotReady hturn hactive hans, hinv.polled hactive _,
      fun hne => absurd rfl hne⟩
  | error e =>
    exact ⟨_, step_sourceError hturn hactive hans, hinv.failed hactive _ _,
      fun _ => .inl ⟨rfl, _, rfl⟩⟩
  | ready b =>
    obtain ⟨k, hk⟩ := exists_restOfRead hinv hactive
    obtain ⟨goOn, -, hbyte⟩ := hk.exists_stepsOnByte hinv hturn
    obtain ⟨t, hstep, hinv', ⟨o, hidle, hout, -⟩ | ⟨hposition, hrest⟩, -⟩ := hbyte b hans
    · exact ⟨t, hstep, hinv', fun _ => .inl ⟨hidle, o, hout⟩⟩
    · exact ⟨t, hstep, hinv', fun _ => .inr ⟨hrest.active, hposition⟩⟩

/-- The state in which DEC, on its turn, has accepted a READ. -/
def readAccepted (s : State) : State := startReading (popRead (popTurn s))

@[simp] theorem readAccepted_config (s : State) : (readAccepted s).config = s.config := rfl
@[simp] theorem readAccepted_enc (s : State) : (readAccepted s).enc = s.enc := rfl
@[simp] theorem readAccepted_dec (s : State) : (readAccepted s).dec = { s.dec with
    requests := s.dec.requests - 1, frame := none, state := .start, out := none } := rfl
@[simp] theorem readAccepted_schedule (s : State) :
    (readAccepted s).schedule = s.schedule.tail := rfl

theorem readAccepted_decInv {s : State} (hinv : DecInv s.config s.dec) :
    DecInv s.config (readAccepted s).dec :=
  decInv_of_out_none rfl rfl hinv.bufCanonical hinv.bufInRange nofun nofun

/-- A step of DEC answers a next state and keeps DEC's invariant. -/
theorem exists_decTurn_step_decInv {s : State} (hinv : DecInv s.config s.dec)
    (hturn : nextTurn s = .dec) : ∃ t, step s = .next t ∧ DecInv s.config t.dec := by
  by_cases hidle : s.dec.state = .idle
  · rcases Nat.eq_zero_or_pos s.dec.requests with hreq | hreq
    · exact ⟨_, step_decWaits hturn hidle hreq, hinv⟩
    · exact ⟨_, step_readAccepted hturn hidle hreq, readAccepted_decInv hinv⟩
  · obtain ⟨t, hstep, hinv', -⟩ := exists_activeDec_step hinv hturn hidle
    exact ⟨t, hstep, hinv'⟩

end Sys2Proof

/-! SUPPORT. Proofs about the whole machine (10_state.md, 60_exceptions.md and
70_reset_and_hazards.md): the invariant and what follows from it, steps that wait, fail or reset,
and what no step does. -/

namespace Sys2Proof

open Sys2Proof.Machine

/-! ### The invariant -/

/-- R36: after reset both engines are idle with empty buffers, whatever their inputs hold. -/
theorem inv_of_reset {s : State} (hwf : s.config.wf)
    (henc : s.enc.state = .idle) (hencBuf : s.enc.buf = []) (hdec : s.dec.state = .idle)
    (hdecBuf : s.dec.buf = []) (hframe : s.dec.frame = none) (hout : s.dec.out = none) : s.Inv where
  config := hwf
  enc := encInv_of_idle henc (hencBuf ▸ .nil) (by simp [InRange, hencBuf])
  dec := decInv_of_out_none hout hframe (hdecBuf ▸ .nil) (by simp [InRange, hdecBuf])
    (by simp [hdec]) (by simp [hdec])

theorem resetWith_withInputs_inv {c : Config} (hwf : c.wf) (frames : List TxRequest) (reads : Nat)
    (sink : List SinkAnswer) (source : List SourceAnswer) (order : List Turn) :
    ((State.resetWith c).withInputs frames reads sink source order).Inv :=
  inv_of_reset hwf rfl rfl rfl rfl rfl rfl

/-- R301: the step of the reset input. -/
theorem step_reset {s : State} (hturn : nextTurn s = .reset) :
    step s = .next (applyReset (popTurn s)) := by
  rw [step, hturn]

/-- Every state of the invariant has a next state, and the invariant holds there. -/
theorem exists_step_inv {s : State} (hinv : s.Inv) : ∃ t, step s = .next t ∧ t.Inv := by
  cases hturn : nextTurn s with
  | enc =>
    obtain ⟨t, hstep, henc⟩ := exists_encTurn_step_encInv hinv hturn
    obtain ⟨hdec, hconfig, -⟩ := encStep_frame ((step_of_encTurn hturn).symm.trans hstep)
    rw [popTurn_config] at hconfig
    rw [popTurn_dec] at hdec
    exact ⟨t, hstep, by rw [hconfig]; exact hinv.config, henc,
      by rw [hconfig, hdec]; exact hinv.dec⟩
  | dec =>
    obtain ⟨t, hstep, hdec⟩ := exists_decTurn_step_decInv hinv.dec hturn
    obtain ⟨henc, hconfig, -⟩ := decStep_frame ((step_of_decTurn hturn).symm.trans hstep)
    rw [popTurn_config] at hconfig
    rw [popTurn_enc] at henc
    exact ⟨t, hstep, by rw [hconfig]; exact hinv.config, by rw [hconfig, henc]; exact hinv.enc,
      by rw [hconfig]; exact hdec⟩
  | reset =>
    exact ⟨_, step_reset hturn, inv_of_reset hinv.config rfl rfl rfl rfl rfl rfl⟩

theorem safeFor_of_inv {s : State} (hinv : s.Inv) (n : Nat) : s.SafeFor n := by
  induction n generalizing s with
  | zero => exact ⟨s, rfl⟩
  | succ n ih =>
    obtain ⟨u, hstep, hu⟩ := exists_step_inv hinv
    obtain ⟨t, hrun⟩ := ih hu
    exact ⟨t, (run_of_step hstep n).trans hrun⟩

/-! ### What no step does -/

theorem encPoll_ne_refused (s : State) (r : Refusal) : encPoll s ≠ .refused r := by
  cases hload : load (encBufSize s.config) s.enc.buf s.enc.idx.toNat with
  | error fault => simp [encPoll, hload]
  | ok b =>
    obtain ⟨hnotReady, herror, hlast, hmore⟩ := encPoll_answers hload
    cases hans : sinkAnswer s with
    | notReady => simp [hnotReady hans]
    | error e => simp [herror e hans]
    | accepted =>
      by_cases htotal : s.enc.idx + 1 = s.enc.total
      · simp [hlast hans htotal]
      · simp [hmore hans htotal]

theorem encStep_ne_refused (s : State) (r : Refusal) : encStep s ≠ .refused r := by
  unfold encStep
  split
  · exact encPoll_ne_refused s r
  · next hidle =>
    split
    · simp
    · next f later hreq =>
      obtain ⟨t, ht⟩ := acceptOutbound_next f (s := popEncode s) hidle
      exact fun h => nomatch ht.symm.trans h

theorem completeFrame_ne_refused (s : State) (r : Refusal) : completeFrame s ≠ .refused r := by
  unfold completeFrame fetchInbound
  split
  · cases loadRange (decBufSize s.config) s.dec.buf 0 s.dec.len.toNat with
    | error fault => simp
    | ok p =>
      cases hd : decodeInbound p with
      | error rejected => simp [hd]
      | ok i =>
        rcases exec_inbound (decodeInbound_isInbound hd) s with ⟨f, h⟩ | ⟨e, h⟩ <;> simp [hd, h]
  · simp

theorem decPoll_ne_refused {onReady : Byte → State → Host.Outcome State Fault Refusal} {r : Refusal}
    (h : ∀ b u, onReady b u ≠ .refused r) (s : State) : decPoll onReady s ≠ .refused r := by
  unfold decPoll
  cases sourceAnswer s with
  | notReady => simp
  | error e => simp
  | ready b => exact h b _

theorem decStep_ne_refused (s : State) (r : Refusal) : decStep s ≠ .refused r := by
  unfold decStep
  split
  · next hidle =>
    split
    · simp
    · rw [exec_read_idle (show (popRead s).dec.state = .idle from hidle)]
      simp
  · exact decPoll_ne_refused (fun b u => by unfold readyStart; split <;> simp) s
  · exact decPoll_ne_refused (fun b u => by simp [readyLenHi]) s
  · exact decPoll_ne_refused (fun b u => by simp only [readyLenLo]; split <;> simp) s
  · refine decPoll_ne_refused (fun b u => ?_) s
    simp only [readyBody]
    split
    · simp
    · split
      · exact completeFrame_ne_refused _ r
      · simp

/-- R33: the parameters are no state. -/
theorem config_of_step {s t : State} (h : step s = .next t) : t.config = s.config := by
  rcases step_cases h with ⟨-, h⟩ | ⟨-, h⟩ | ⟨-, rfl⟩
  · obtain ⟨-, hconfig, -⟩ := encStep_frame h
    exact hconfig
  · obtain ⟨-, hconfig, -⟩ := decStep_frame h
    exact hconfig
  · rfl

/-! ### The data window (R65, R173) -/

/-- The host reads exactly the data of a delivered packet. -/
theorem hostReadData_of_deliveredInv {s : State} {r : RxPacket}
    (hframe : s.dec.frame = some (.rxPacket r))
    (hdelivered : DeliveredInv s.config s.dec.buf (.rxPacket r)) (i : Nat) :
    s.hostReadData i = r.data[i]? := by
  obtain ⟨-, -, hwindow⟩ := hdelivered
  simp only [State.hostReadData, hframe]
  split
  · next hi => exact hwindow i hi
  · next hi => exact (List.getElem?_eq_none (Nat.le_of_not_lt hi)).symm

/-- Only an accepted READ and a reset touch a DEC that has delivered a value. -/
theorem step_keeps_delivered_dec {s t : State} {f : Inbound} (hinv : s.Inv)
    (hframe : s.dec.frame = some f) (hstep : step s = .next t) (hreset : nextTurn s ≠ .reset)
    (hread : ¬ (nextTurn s = .dec ∧ 0 < s.dec.requests)) : t.dec = s.dec := by
  rcases step_cases hstep with ⟨-, h⟩ | ⟨hturn, -⟩ | ⟨hturn, -⟩
  · obtain ⟨hdec, -, -⟩ := encStep_frame h
    exact hdec
  · have hidle : s.dec.state = .idle := by
      by_contra hactive
      simp [hinv.dec.frame_eq_none hactive] at hframe
    have hwait := step_decWaits hturn hidle (Nat.eq_zero_of_not_pos fun h => hread ⟨hturn, h⟩)
    obtain rfl : t = popTurn s := Host.Outcome.next.inj (hstep.symm.trans hwait)
    rfl
  · exact absurd hturn hreset

/-! ### The statements -/

/-- Settles O44: the one next state is the one that satisfies the invariant. -/
theorem everyStepKeepsTheInvariant : Obligations.EveryStepKeepsTheInvariant := by
  intro s t hinv hstep
  obtain ⟨u, hu, hinv'⟩ := exists_step_inv hinv
  obtain rfl : t = u := Host.Outcome.next.inj (hstep.symm.trans hu)
  exact hinv'

/-- Settles O45: each engine has a step. -/
theorem invariantStatesNeverStop : Obligations.InvariantStatesNeverStop := by
  intro s hinv
  obtain ⟨t, hstep, -⟩ := exists_step_inv hinv
  exact ⟨t, hstep⟩

/-- Settles O46: the invariant holds at reset with any inputs, and along every run. -/
theorem noInputStopsTheMachine : Obligations.NoInputStopsTheMachine := by
  intro c frames reads sink source order n hwf
  exact safeFor_of_inv (resetWith_withInputs_inv hwf frames reads sink source order) n

/-- Settles O43: no inputs are one choice of inputs. -/
theorem invariantHoldsAtReset : Obligations.InvariantHoldsAtReset := by
  have hreset : ∀ c : Config, c.wf → (State.resetWith c).Inv := fun c hwf =>
    resetWith_withInputs_inv hwf [] 0 [] [] []
  exact ⟨hreset .default (by decide), hreset⟩

/-- Settles O47: the three turns, none of which refuses. -/
theorem stepIsNeverRefused : Obligations.StepIsNeverRefused := by
  intro s r
  cases hturn : nextTurn s with
  | enc => rw [step_of_encTurn hturn]; exact encStep_ne_refused _ r
  | dec => rw [step_of_decTurn hturn]; exact decStep_ne_refused _ r
  | reset => rw [step_reset hturn]; exact nofun

/-- Settles O48: by the frames of the engines' steps. -/
theorem parametersNeverChange : Obligations.ParametersNeverChange :=
  fun _ _ => config_of_step

/-- Settles O54: DEC is not touched, and its buffer holds the data. -/
theorem dataWindowStaysUntilTheNextRead : Obligations.DataWindowStaysUntilTheNextRead := by
  intro s t r hinv hframe hstep hreset hread
  have hdec := step_keeps_delivered_dec hinv hframe hstep hreset hread
  have hframe' : t.dec.frame = some (.rxPacket r) := by rw [hdec, hframe]
  have hinv' := everyStepKeepsTheInvariant s t hinv hstep
  exact ⟨hframe', hostReadData_of_deliveredInv hframe' (hinv'.dec.delivered _ hframe')⟩

/-- Settles O58: each engine's step by the answer it is given. -/
theorem everyAnswerMakesProgress : Obligations.EveryAnswerMakesProgress := by
  constructor
  · intro s hinv hturn hsend
    obtain ⟨s₀, f, hsending⟩ := exists_sending_of_encInv hinv.enc hsend
    obtain ⟨t, hstep, hended | ⟨k, ht, hmoved⟩⟩ := hsending.exists_step hturn
    · exact ⟨t, hstep, fun _ => .inl hended⟩
    · exact ⟨t, hstep, fun hans => .inr ⟨ht.state, by rw [ht.idx, hmoved hans]⟩⟩
  · intro s hinv hturn hactive
    obtain ⟨t, hstep, -, hprogress⟩ := exists_activeDec_step hinv.dec hturn hactive
    exact ⟨t, hstep, hprogress⟩

/-- Settles O42: by the values of the reset state. -/
theorem resetLeavesBothEnginesIdle : Obligations.ResetLeavesBothEnginesIdle :=
  fun _ => ⟨rfl, rfl, rfl, rfl, rfl, rfl, rfl, rfl, rfl, rfl⟩

/-- Settles O51: the waiting steps use up the turn alone. -/
theorem idleEnginesWait : Obligations.IdleEnginesWait :=
  ⟨fun _ => step_encWaits, fun _ => step_decWaits⟩

/-- Settles O52: `raise` leaves the engine idle, and an idle engine accepts. -/
theorem failureLeavesTheEngineReady : Obligations.FailureLeavesTheEngineReady :=
  ⟨fun s e => ⟨rfl, fun f => acceptOutbound_next f (s := raise (.enc e) s) rfl⟩,
    fun _ _ => ⟨rfl, _, exec_read_idle rfl, rfl⟩⟩

/-- Settles O53: `applyReset` keeps the parameters, the streams and the answers. -/
theorem resetInputAbandonsCommands : Obligations.ResetInputAbandonsCommands :=
  fun _ hturn => ⟨_, step_reset hturn, rfl, rfl, rfl, rfl, rfl, rfl, rfl, rfl, rfl, rfl, rfl, rfl⟩

end Sys2Proof

/-! SUPPORT. Proofs about whole READ commands (44_decoder.md): DEC on the answers of the source does
what the spec's `readOf` makes of them. -/

namespace Sys2Proof

open Sys2Proof.Machine

/-! ### The READ of the spec on its answers -/

/-- A READ that has ended has used up at least one answer. -/
theorem awaitByte_rest_lt {goOn : Byte → List SourceAnswer → Option ReadEnd}
    (hgoOn : ∀ b answers r, goOn b answers = some r → r.rest.length ≤ answers.length)
    {answers : List SourceAnswer} {r : ReadEnd} (h : awaitByte goOn answers = some r) :
    r.rest.length < answers.length := by
  induction answers with
  | nil => cases h
  | cons a answers ih =>
    rw [List.length_cons]
    cases a with
    | notReady => exact Nat.lt_succ_of_lt (ih h)
    | error e => cases h; exact Nat.lt_succ_self _
    | ready b =>
      cases hq : goOn b answers with
      | none => simp [awaitByte, hq] at h
      | some q =>
        obtain rfl : { q with consumed := q.consumed + 1 } = r := by simpa [awaitByte, hq] using h
        exact Nat.lt_succ_of_le (hgoOn b answers q hq)

theorem readBody_rest_lt {c : Config} {toGo : Nat} {got : List Byte} {answers : List SourceAnswer}
    {r : ReadEnd} (h : readBody c toGo got answers = some r) : r.rest.length < answers.length := by
  induction toGo generalizing got answers r with
  | zero => exact awaitByte_rest_lt (fun b as q hq => by cases hq; exact Nat.le_refl _) h
  | succ n ih => exact awaitByte_rest_lt (fun b as q hq => (ih hq).le) h

theorem awaitLengthKnown_rest_lt {c : Config} {hi : Byte} {answers : List SourceAnswer}
    {r : ReadEnd} (h : awaitByte (lengthKnown c hi) answers = some r) :
    r.rest.length < answers.length := by
  refine awaitByte_rest_lt (fun lo as q hq => ?_) h
  rcases Nat.lt_or_ge c.cap (hi.toNat * 256 + lo.toNat + 1) with hcap | hcap
  · rw [lengthKnown_overflow hcap] at hq
    cases hq
    exact Nat.le_refl _
  · rw [lengthKnown_fits hcap] at hq
    exact (readBody_rest_lt hq).le

theorem readLength_rest_lt {c : Config} {answers : List SourceAnswer} {r : ReadEnd}
    (h : readLength c answers = some r) : r.rest.length < answers.length := by
  rw [readLength_eq] at h
  exact awaitByte_rest_lt (fun _ _ _ hq => (awaitLengthKnown_rest_lt hq).le) h

theorem readOf_rest_lt {c : Config} {answers : List SourceAnswer} {r : ReadEnd}
    (h : readOf c answers = some r) : r.rest.length < answers.length := by
  refine awaitByte_rest_lt (fun b as q hq => ?_) h
  split at hq
  · exact (readLength_rest_lt hq).le
  · cases hq; exact Nat.le_refl _

theorem RestOfRead.rest_lt {c : Config} {d : Dec} {k : List SourceAnswer → Option ReadEnd}
    (hk : RestOfRead c d k) {answers : List SourceAnswer} {r : ReadEnd}
    (h : k answers = some r) : r.rest.length < answers.length := by
  cases hk with
  | start => exact readOf_rest_lt h
  | lenHi => exact readLength_rest_lt h
  | lenLo => exact awaitLengthKnown_rest_lt h
  | body => exact readBody_rest_lt h

/-- One answer other than NotReady for each body byte is enough. -/
theorem readBody_ends (c : Config) (toGo : Nat) (got : List Byte) (answers : List SourceAnswer)
    (h : toGo + 1 ≤ answers.countP (· ≠ .notReady)) : (readBody c toGo got answers).isSome := by
  induction toGo generalizing got answers with
  | zero => exact awaitByte_ends (n := 0) (fun _ _ _ => rfl) answers h
  | succ n ih => exact awaitByte_ends (fun b as => ih (got ++ [b]) as) answers h

theorem readLength_ends (c : Config) (answers : List SourceAnswer)
    (h : c.cap + 2 ≤ answers.countP (· ≠ .notReady)) : (readLength c answers).isSome := by
  rw [readLength_eq]
  refine awaitByte_ends (fun hi => awaitByte_ends (n := c.cap) fun lo as has => ?_) answers h
  rcases Nat.lt_or_ge c.cap (hi.toNat * 256 + lo.toNat + 1) with hcap | hcap
  · rw [lengthKnown_overflow hcap]
    rfl
  · rw [lengthKnown_fits hcap]
    exact readBody_ends c _ [] as (hcap.trans has)

/-- `CAP + 3` answers other than NotReady are enough: START, the length, at most `CAP` body
bytes. -/
theorem readOf_ends (c : Config) (answers : List SourceAnswer)
    (h : c.cap + 3 ≤ answers.countP (· ≠ .notReady)) : (readOf c answers).isSome := by
  refine awaitByte_ends (n := c.cap + 2) (fun b as has => ?_) answers h
  split
  · exact readLength_ends c as has
  · rfl

/-! ### Runs of DEC on the answers of the source -/

/-- The READ in progress at `d` has ended at `d'` as `r` says. -/
structure ReadEnded (d : Dec) (r : ReadEnd) (d' : Dec) : Prop where
  state : d'.state = .idle
  out : d'.out = some r.outcome
  frame : d'.frame = deliveredFrame r.outcome
  consumed : d'.consumed = d.consumed + r.consumed
  answers : d'.answers = r.rest

/-- A READ is in progress at `d'` that has used up all answers. -/
structure ReadPolls (d' : Dec) : Prop where
  active : d'.state ≠ .idle
  out : d'.out = none
  frame : d'.frame = none
  answers : d'.answers = []

/-- What the spec makes of the READ in progress at `d` is what has come of it at `d'`. -/
def ReadResult (d d' : Dec) : Option ReadEnd → Prop
  | none => ReadPolls d'
  | some r => ReadEnded d r d'

/-- How many answers the READ leaves for later. -/
def leftOver : Option ReadEnd → Nat
  | none => 0
  | some r => r.rest.length

/-- An answer that is no byte does not change the count of bytes consumed. -/
theorem ReadResult.of_polled {d u d' : Dec} {o : Option ReadEnd} (h : ReadResult u d' o)
    (hconsumed : u.consumed = d.consumed) : ReadResult d d' o := by
  cases o with
  | none => exact h
  | some r => exact { h with consumed := hconsumed ▸ ReadEnded.consumed h }

/-- A byte adds one to the count of bytes consumed. -/
theorem ReadResult.of_byteRead {d u d' : Dec} {goOn : Byte → List SourceAnswer → Option ReadEnd}
    {b : Byte} {answers : List SourceAnswer} (h : ReadResult u d' (goOn b answers))
    (hconsumed : u.consumed = d.consumed + 1) :
    ReadResult d d' (awaitByte goOn (.ready b :: answers)) := by
  rw [awaitByte]
  cases hq : goOn b answers with
  | none => rwa [hq] at h
  | some q =>
    rw [hq] at h
    have hended : ReadEnded u q d' := h
    exact { hended with
            consumed := by rw [hended.consumed, hconsumed]; exact Nat.add_right_comm .. }

theorem leftOver_awaitByte_ready {goOn : Byte → List SourceAnswer → Option ReadEnd} {b : Byte}
    {answers : List SourceAnswer} :
    leftOver (awaitByte goOn (.ready b :: answers)) = leftOver (goOn b answers) := by
  rw [awaitByte]
  cases goOn b answers <;> rfl

theorem RestOfRead.leftOver_le {c : Config} {d : Dec} {k : List SourceAnswer → Option ReadEnd}
    (hk : RestOfRead c d k) (a : SourceAnswer) (answers : List SourceAnswer) :
    leftOver (k (a :: answers)) ≤ answers.length := by
  cases hq : k (a :: answers) with
  | none => exact Nat.zero_le _
  | some r => exact Nat.le_of_lt_succ (hk.rest_lt hq)

theorem leftOver_readOf_le (c : Config) (answers : List SourceAnswer) :
    leftOver (readOf c answers) ≤ answers.length := by
  cases hr : readOf c answers with
  | none => exact Nat.zero_le _
  | some r => exact (readOf_rest_lt hr).le

theorem RestOfRead.nil {c : Config} {d : Dec} {k : List SourceAnswer → Option ReadEnd}
    (hk : RestOfRead c d k) : k [] = none := by
  cases hq : k [] with
  | none => rfl
  | some r => exact absurd (hk.rest_lt hq) (Nat.not_lt_zero _)

/-- A step of DEC leaves ENC, the parameters and the rest of the schedule alone. -/
theorem step_decTurn_frame {s u : State} {n : Nat} {order : List Turn}
    (hsched : s.schedule = List.replicate (n + 1) .dec ++ order) (hstep : step s = .next u) :
    u.enc = s.enc ∧ u.config = s.config ∧ u.schedule = List.replicate n .dec ++ order := by
  have hturn : nextTurn s = .dec := nextTurn_of_schedule hsched
  obtain ⟨henc, hconfig, hsched'⟩ := decStep_frame ((step_of_decTurn hturn).symm.trans hstep)
  exact ⟨henc, hconfig, by rw [hsched', popTurn_schedule, hsched, tail_replicate_append]⟩

/-- A run of as many steps as the spec's READ uses up answers ends, or goes on, as the spec says. -/
theorem RestOfRead.run {s : State} {k : List SourceAnswer → Option ReadEnd} {n : Nat}
    {order : List Turn} {answers : List SourceAnswer} (hk : RestOfRead s.config s.dec k)
    (hinv : DecInv s.config s.dec) (hans : s.dec.answers = answers)
    (hn : n + leftOver (k answers) = answers.length)
    (hsched : s.schedule = List.replicate n .dec ++ order) :
    ∃ t, Sys2Proof.core.run n s = .next t ∧ ReadResult s.dec t.dec (k answers) ∧
      t.dec.requests = s.dec.requests ∧ t.enc = s.enc ∧ t.config = s.config ∧
      t.schedule = order := by
  have hactive := hk.active
  induction answers generalizing s k n with
  | nil =>
    rw [hk.nil] at hn ⊢
    obtain rfl : n = 0 := hn
    exact ⟨s, rfl, ⟨hactive, hinv.active hactive, hinv.frame_eq_none hactive, hans⟩, rfl, rfl, rfl,
      hsched⟩
  | cons a answers ih =>
    have hle := hk.leftOver_le a answers
    obtain ⟨n, rfl⟩ : ∃ m, n = m + 1 := ⟨n - 1, by rw [List.length_cons] at hn; omega⟩
    have hn' : n + leftOver (k (a :: answers)) = answers.length := by
      rw [List.length_cons] at hn; omega
    have hturn : nextTurn s = .dec := nextTurn_of_schedule hsched
    have hhead : sourceAnswer s = a := sourceAnswer_of_answers hans
    obtain ⟨goOn, rfl, hbyte⟩ := hk.exists_stepsOnByte hinv hturn
    cases a with
    | notReady =>
      have hstep := step_sourceNotReady hturn hactive hhead
      obtain ⟨henc, hconfig, husched⟩ := step_decTurn_frame hsched hstep
      obtain ⟨t, hrun, hresult, hreq, hframe⟩ := ih (hk.polled _) (hinv.polled hactive _)
        (by rw [sourcePolled_dec, popTurn_dec, hans]; rfl) hn' husched hactive
      exact ⟨t, (run_of_step hstep n).trans hrun, hresult.of_polled rfl, hreq, hframe⟩
    | error e =>
      have hstep := step_sourceError hturn hactive hhead
      obtain ⟨henc, hconfig, husched⟩ := step_decTurn_frame hsched hstep
      obtain rfl : n = 0 := by simpa [awaitByte, leftOver] using hn'
      exact ⟨_, run_of_step hstep 0,
        ⟨rfl, rfl, hinv.frame_eq_none hactive, rfl, congrArg List.tail hans⟩, rfl, henc, hconfig,
        husched⟩
    | ready b =>
      obtain ⟨u, hstep, huinv, hread, huans, hucons, hureq⟩ := hbyte b hhead
      obtain ⟨henc, hconfig, husched⟩ := step_decTurn_frame hsched hstep
      rw [leftOver_awaitByte_ready] at hn'
      have huans' : u.dec.answers = answers := by rw [huans, hans, List.tail_cons]
      suffices h : ∃ t, Sys2Proof.core.run n u = .next t ∧
          ReadResult u.dec t.dec (goOn b answers) ∧ t.dec.requests = u.dec.requests ∧
          t.enc = u.enc ∧ t.config = u.config ∧ t.schedule = order by
        obtain ⟨t, hrun, hresult, htreq, htenc, htconfig, htsched⟩ := h
        exact ⟨t, (run_of_step hstep n).trans hrun, hresult.of_byteRead hucons, htreq.trans hureq,
          htenc.trans henc, htconfig.trans hconfig, htsched⟩
      rcases hread with ⟨o, hidle, hout, hgoOn⟩ | ⟨-, hrest⟩
      · rw [hgoOn] at hn' ⊢
        obtain rfl : n = 0 := by simpa [leftOver] using hn'
        exact ⟨u, rfl, ⟨hidle, hout, huinv.frame_eq_deliveredFrame hout, rfl, huans'⟩, rfl, rfl,
          rfl, husched⟩
      · rw [← hconfig] at hrest huinv
        exact ih hrest huinv huans' hn' husched hrest.active

theorem run_decWaits {s : State} {n : Nat} {order : List Turn} (hidle : s.dec.state = .idle)
    (hreq : s.dec.requests = 0) (hsched : s.schedule = List.replicate n .dec ++ order) :
    Sys2Proof.core.run n s = .next { s with schedule := order } := by
  induction n generalizing s with
  | zero =>
    obtain rfl : s.schedule = order := hsched
    rfl
  | succ n ih =>
    rw [run_of_step (step_decWaits (nextTurn_of_schedule hsched) hidle hreq)]
    exact ih hidle hreq (by rw [popTurn_schedule, hsched]; rfl)

/-- NotReady answers alone leave an active DEC where it is (R223, R242). -/
theorem run_sourceNotReady {s : State} {answers : List SourceAnswer} {order : List Turn}
    (hactive : s.dec.state ≠ .idle) (hout : s.dec.out = none) (hans : s.dec.answers = answers)
    (hall : ∀ a ∈ answers, a = .notReady)
    (hsched : s.schedule = List.replicate answers.length .dec ++ order) :
    ∃ t, Sys2Proof.core.run answers.length s = .next t ∧ t.dec.state = s.dec.state ∧
      t.dec.out = none ∧ t.dec.consumed = s.dec.consumed := by
  induction answers generalizing s with
  | nil => exact ⟨s, rfl, rfl, hout, rfl⟩
  | cons a answers ih =>
    have hhead : sourceAnswer s = .notReady :=
      (sourceAnswer_of_answers hans).trans (hall a List.mem_cons_self)
    have hstep := step_sourceNotReady (nextTurn_of_schedule hsched) hactive hhead
    obtain ⟨t, hrun, ht⟩ := ih (s := sourcePolled (popTurn s)) hactive rfl (congrArg List.tail hans)
      (fun a ha => hall a (List.mem_cons_of_mem _ ha)) (congrArg List.tail hsched)
    exact ⟨t, (run_of_step hstep _).trans hrun, ht⟩

/-- A whole READ, from the accepting step to the last answer it uses up. -/
theorem run_read {s : State} {n : Nat} {order : List Turn} (hinv : s.Inv)
    (hidle : s.dec.state = .idle) (hreq : 0 < s.dec.requests)
    (hn : n + leftOver (readOf s.config s.dec.answers) = s.dec.answers.length)
    (hsched : s.schedule = List.replicate (n + 1) .dec ++ order) :
    ∃ t, Sys2Proof.core.run (n + 1) s = .next t ∧
      ReadResult s.dec t.dec (readOf s.config s.dec.answers) ∧
      t.dec.requests = s.dec.requests - 1 ∧ t.enc = s.enc ∧ t.config = s.config ∧
      t.schedule = order := by
  have hstep := step_readAccepted (nextTurn_of_schedule hsched) hidle hreq
  have hrest : RestOfRead s.config (readAccepted s).dec (readOf s.config) := .start rfl
  obtain ⟨t, hrun, hresult, hframe⟩ := hrest.run (s := readAccepted s)
    (readAccepted_decInv hinv.dec) rfl hn (by rw [readAccepted_schedule, hsched]; rfl)
  exact ⟨t, (run_of_step hstep n).trans hrun, hresult.of_polled rfl, hframe⟩

/-! ### The answers that carry given bytes -/

/-- The answers give exactly these bytes, the last answer the last of them, with NotReady answers
anywhere before it. -/
inductive Gives : List SourceAnswer → List Byte → Prop where
  | nil : Gives [] []
  | ready (b : Byte) {answers : List SourceAnswer} {bs : List Byte} (h : Gives answers bs) :
      Gives (.ready b :: answers) (b :: bs)
  | notReady {answers : List SourceAnswer} {b : Byte} {bs : List Byte}
      (h : Gives answers (b :: bs)) :
      Gives (.notReady :: answers) (b :: bs)

theorem gives_readyBytes {answers : List SourceAnswer} {c : Byte}
    (hall : ∀ a ∈ answers, a = .notReady ∨ ∃ b, a = .ready b)
    (hlast : answers.getLast? = some (.ready c)) : Gives answers (readyBytes answers) := by
  induction answers with
  | nil => exact .nil
  | cons a answers ih =>
    rcases answers with _ | ⟨a', answers⟩
    · obtain rfl : a = .ready c := by simpa using hlast
      exact .ready c .nil
    · rw [List.getLast?_cons_cons] at hlast
      have hgives := ih (fun a ha => hall a (List.mem_cons_of_mem _ ha)) hlast
      rcases hall a List.mem_cons_self with rfl | ⟨b, rfl⟩
      · rw [readyBytes]
        cases hbs : readyBytes (a' :: answers) with
        | nil => rw [hbs] at hgives; cases hgives
        | cons b bs => rw [hbs] at hgives; exact .notReady hgives
      · exact .ready b hgives

/-- A byte is awaited through the NotReady answers before it. -/
theorem Gives.exists_awaitByte {answers : List SourceAnswer} {b : Byte} {bs : List Byte}
    (h : Gives answers (b :: bs)) :
    ∃ answers', Gives answers' bs ∧ ∀ goOn rest o n left,
      goOn b (answers' ++ rest) = some ⟨o, n, left⟩ →
      awaitByte goOn (answers ++ rest) = some ⟨o, n + 1, left⟩ := by
  generalize hbs : b :: bs = all at h
  induction h with
  | nil => cases hbs
  | ready b' h =>
    cases hbs
    refine ⟨_, h, fun goOn rest o n left hr => ?_⟩
    rw [List.cons_append, awaitByte, hr]
  | notReady h ih => exact ih hbs

theorem Gives.readBody_eq {answers : List SourceAnswer} {p : List Byte} {c : Byte}
    (h : Gives answers (p ++ [c])) (config : Config) (got : List Byte) (rest : List SourceAnswer) :
    readBody config p.length got (answers ++ rest) =
      some ⟨readOutcome config (got ++ p) (sum8 (got ++ p ++ [c])), p.length + 1, rest⟩ := by
  induction p generalizing answers got with
  | nil =>
    obtain ⟨answers', hnil, hawait⟩ := h.exists_awaitByte
    cases hnil
    rw [List.append_nil]
    exact hawait (fun b answers => some ⟨readOutcome config got (sum8 (got ++ [b])), 0, answers⟩)
      rest _ 0 rest rfl
  | cons b p ih =>
    obtain ⟨answers', hp, hawait⟩ := h.exists_awaitByte
    have hbody := ih hp (got ++ [b])
    rw [List.append_assoc got, List.singleton_append] at hbody
    exact hawait (fun b answers => readBody config p.length (got ++ [b]) answers)
      rest _ _ rest hbody

/-- R82: the two length bytes of a payload that the field can count. -/
theorem toNat_hi8_lo8_length {p : List Byte} (hp : p.length ≤ 65535) :
    (hi8 (.ofNat 16 p.length)).toNat * 256 + (lo8 (.ofNat 16 p.length)).toNat = p.length := by
  rw [← toNat_be16, be16_hi8_lo8, BitVec.toNat_ofNat, Nat.mod_eq_of_lt (by omega)]

/-- R240: the READ of the spec on the bytes of one frame that fits. -/
theorem Gives.readOf_eq {answers : List SourceAnswer} {p : List Byte} {c : Byte} {config : Config}
    (h : Gives answers ([0x7E, hi8 (.ofNat 16 p.length), lo8 (.ofNat 16 p.length)] ++ p ++ [c]))
    (hp : p.length ≤ 65535) (hcap : p.length + 1 ≤ config.cap) (rest : List SourceAnswer) :
    readOf config (answers ++ rest) =
      some ⟨readOutcome config p (sum8 (p ++ [c])), p.length + 4, rest⟩ := by
  have hlen := toNat_hi8_lo8_length hp
  obtain ⟨answers₁, h₁, hstart⟩ := Gives.exists_awaitByte h
  obtain ⟨answers₂, h₂, hhi⟩ := Gives.exists_awaitByte h₁
  obtain ⟨answers₃, h₃, hlo⟩ := Gives.exists_awaitByte h₂
  have hbody := Gives.readBody_eq (p := p) h₃ config [] rest
  have hknown : lengthKnown config (hi8 (.ofNat 16 p.length)) (lo8 (.ofNat 16 p.length)) =
      readBody config p.length [] := by
    rw [lengthKnown_fits (by rw [hlen]; exact hcap), hlen]
  rw [← hknown] at hbody
  have hlength : readLength config (answers₁ ++ rest) = _ :=
    hhi _ rest _ _ rest (hlo _ rest _ _ rest hbody)
  exact hstart _ rest _ _ rest ((if_pos rfl).trans hlength)

/-! ### The statements -/

/-- Settles O55: the run to the end of the READ, and waiting steps for the answers it leaves. -/
theorem readEndsAsTheSpecSays : Obligations.ReadEndsAsTheSpecSays := by
  rintro s _ order hinv hidle hreq rfl hsched
  obtain ⟨n, hn⟩ : ∃ n, n + leftOver (readOf s.config s.dec.answers) = s.dec.answers.length :=
    ⟨_, Nat.sub_add_cancel (leftOver_readOf_le ..)⟩
  rw [← hn, Nat.add_right_comm] at hsched ⊢
  rw [← List.replicate_append_replicate, List.append_assoc] at hsched
  obtain ⟨t, hrun, hresult, htreq, htenc, htconfig, htsched⟩ :=
    run_read hinv hidle (by omega) hn hsched
  rw [hreq] at htreq
  have hwait : Sys2Proof.core.run (leftOver (readOf s.config s.dec.answers)) t =
      .next { t with schedule := order } := by
    cases hr : readOf s.config s.dec.answers with
    | none =>
      rw [hr] at htsched
      exact congrArg Host.Outcome.next (State.eq_of_fields rfl rfl rfl htsched)
    | some r =>
      rw [hr] at htsched hresult
      exact run_decWaits (ReadEnded.state hresult) htreq htsched
  refine ⟨_, (run_add _ hrun).trans hwait, htenc, htconfig, rfl, htreq, fun r hr => ?_,
    fun hr => ?_⟩
  · rw [hr] at hresult
    obtain ⟨hstate, hout, hframe, hconsumed, hanswers⟩ := hresult
    exact ⟨hstate, hout, hframe, hconsumed, hanswers⟩
  · rw [hr] at hresult
    obtain ⟨hactive, hout, hframe, hanswers⟩ := hresult
    exact ⟨hactive, hout, hframe, hanswers⟩

/-- Settles O40: on the bytes of one frame the spec's READ uses up all answers. -/
theorem readOfOneFrame : Obligations.ReadOfOneFrame := by
  intro s p c reads answers rest order hinv hidle hreq hcap hans hall hbytes hlast hsched
  obtain ⟨⟨-, hmax⟩, -⟩ := hinv.config
  have hgives := gives_readyBytes hall hlast
  rw [hbytes] at hgives
  have hr := hgives.readOf_eq (Nat.le_trans (Nat.le_of_succ_le hcap) hmax) hcap rest
  rw [← hans] at hr
  obtain ⟨t, hrun, hresult, htreq, htenc, -, htsched⟩ := run_read hinv hidle (by omega)
    (by rw [hr, hans, List.length_append, leftOver]) hsched
  rw [hr] at hresult
  obtain ⟨hstate, hout, hframe, hconsumed, hanswers⟩ := hresult
  exact ⟨t, hrun, hstate, hout, hframe, hconsumed, hanswers, by omega, htenc, htsched⟩

theorem readyBytes_map_ready (bs : List Byte) : readyBytes (bs.map .ready) = bs := by
  induction bs with
  | nil => rfl
  | cons b bs ih => rw [List.map_cons, readyBytes, ih]

/-- R95, R171: an outbound payload under its own checksum is an unsupported inbound one. -/
theorem readOutcome_payloadOf (c : Config) (f : TxRequest) :
    readOutcome c (payloadOf f) (sum8 (payloadOf f ++ [checksum (payloadOf f)])) =
      .failed (.unsupported 0x10) :=
  readOutcome_otherTag c _ (by decide) (by decide) ((sum8_concat_eq_iff ..).mpr rfl)

/-- Settles O41: the frame's checksum is right, and its tag has no parser. -/
theorem loopBackIsUnsupported : Obligations.LoopBackIsUnsupported := by
  intro s f reads rest order hinv hidle hreq hcap hans hsched
  obtain ⟨t, hrun, hstate, hout, hframe, -, hanswers, -⟩ :=
    readOfOneFrame s (payloadOf f) (checksum (payloadOf f)) reads ((wire f).map .ready) rest order
      hinv hidle hreq (by rw [length_payloadOf]; exact hcap) hans (by simp)
      (readyBytes_map_ready _)
      (by rw [List.getLast?_map, wire, frameAround, List.getLast?_concat]; rfl)
      (by rw [List.length_map]; exact hsched)
  rw [List.length_map] at hrun
  rw [readOutcome_payloadOf] at hout hframe
  exact ⟨t, hrun, hstate, hout, hframe, hanswers⟩

/-- Settles O56: the spec's READ ends on that many answers, and NotReady answers leave DEC in
`D_START`. -/
theorem readEndsUnderFairness : Obligations.ReadEndsUnderFairness := by
  intro s answers order hinv hidle hreq hans hsched
  obtain ⟨t, hrun, -, -, -, -, hended, -⟩ :=
    readEndsAsTheSpecSays s answers order hinv hidle hreq hans hsched
  refine ⟨t, hrun, fun hmany => ?_, fun hnone => ?_⟩
  · obtain ⟨r, hr⟩ := Option.isSome_iff_exists.mp (readOf_ends s.config answers hmany)
    obtain ⟨hstate, hout, -⟩ := hended r hr
    exact ⟨hstate, _, hout⟩
  · have hstep := step_readAccepted (nextTurn_of_schedule hsched) hidle (by omega)
    obtain ⟨u, hrun', hu⟩ := run_sourceNotReady (s := readAccepted s) nofun rfl hans hnone
      (congrArg List.tail hsched)
    obtain rfl : u = t := Host.Outcome.next.inj
      (hrun'.symm.trans ((run_of_step hstep _).symm.trans hrun))
    exact hu

end Sys2Proof

/-! SUPPORT. Noninterference (10_state.md sections 1 and 7, 20_memory.md section 5, 00_scope.md
section 4): a step of an engine commutes with every change of what it may not look at, which is the
other engine, the schedule, and the values of its transport's errors. -/

namespace Sys2Proof

open Sys2Proof.Machine

/-- The outcome with another next state in it. -/
def mapNext (v : State → State) :
    Host.Outcome State Fault Refusal → Host.Outcome State Fault Refusal
  | .next s => .next (v s)
  | .fault r => .fault r
  | .refused r => .refused r

/-! ### ENC -/

/-- The state with other sink errors, another DEC and another schedule. -/
def encView (f : SinkErr → SinkErr) (d : Dec) (order : List Turn) (s : State) : State where
  config := s.config
  enc := (s.mapErr f id).enc
  dec := d
  schedule := order

@[simp] theorem encView_enc (f : SinkErr → SinkErr) (d : Dec) (order : List Turn) (s : State) :
    (encView f d order s).enc = (s.mapErr f id).enc := rfl

section
variable (f : SinkErr → SinkErr) (d : Dec) (order : List Turn) (s : State)

theorem sinkAnswer_encView : sinkAnswer (encView f d order s) = (sinkAnswer s).mapErr f :=
  sinkAnswer_mapErr f id s

theorem sinkPolled_encView :
    sinkPolled (encView f d order s) = encView f d order (sinkPolled s) := by
  refine State.eq_of_fields rfl ?_ rfl rfl
  rw [encView_enc, ← sinkPolled_mapErr]
  rfl

theorem startSending_encView (frame : TxRequest) (buf : Memory) :
    startSending frame buf (encView f d order s) =
      encView f d order (startSending frame buf s) := by
  refine State.eq_of_fields rfl ?_ rfl rfl
  simp

theorem exec_encode_encView (frame : TxRequest) :
    exec (.encode frame) (encView f d order s) =
      mapNext (encView f d order) (exec (.encode frame) s) := by
  by_cases hidle : s.enc.state = .idle
  · rcases Nat.lt_or_ge s.config.cap (encodedLength frame) with hcap | hcap
    · rw [exec_encode_overflow hidle hcap,
        exec_encode_overflow (s := encView f d order s) hidle hcap]
      rfl
    · obtain ⟨buf, hbuf, hexec⟩ := exec_encode_staged hidle hcap
      obtain ⟨buf', hbuf', hexec'⟩ := exec_encode_staged (s := encView f d order s) hidle hcap
      obtain rfl : buf = buf' := Except.ok.inj (hbuf.symm.trans hbuf')
      rw [hexec, hexec', startSending_encView]
      rfl
  · rw [exec_encode_busy hidle, exec_encode_busy (s := encView f d order s) hidle]
    rfl

theorem encPoll_encView :
    encPoll (encView f d order s) = mapNext (encView f d order) (encPoll s) := by
  have hans' := sinkAnswer_encView f d order s
  have hpolled := sinkPolled_encView f d order s
  cases hload : load (encBufSize s.config) s.enc.buf s.enc.idx.toNat with
  | error r =>
    have hfault : ∀ u : State, load (encBufSize u.config) u.enc.buf u.enc.idx.toNat = .error r →
        encPoll u = .fault r := fun u hu => by rw [encPoll, hu]
    rw [hfault s hload, hfault (encView f d order s) hload]
    rfl
  | ok b =>
    obtain ⟨hnotReady, herror, hlast, hmore⟩ := encPoll_answers hload
    obtain ⟨hnotReady', herror', hlast', hmore'⟩ := encPoll_answers (s := encView f d order s) hload
    rw [hpolled] at hnotReady' herror' hlast' hmore'
    cases hans : sinkAnswer s with
    | notReady =>
      rw [hans] at hans'
      rw [hnotReady hans, hnotReady' hans']
      rfl
    | error e =>
      rw [hans] at hans'
      rw [herror e hans, herror' (f e) hans']
      rfl
    | accepted =>
      rw [hans] at hans'
      by_cases htotal : s.enc.idx + 1 = s.enc.total
      · rw [hlast hans htotal, hlast' hans' htotal]
        rfl
      · rw [hmore hans htotal, hmore' hans' htotal]
        rfl

theorem encStep_encView :
    encStep (encView f d order s) = mapNext (encView f d order) (encStep s) := by
  have henc : (encView f d order s).enc.state = s.enc.state := rfl
  have hreqs : (encView f d order s).enc.requests = s.enc.requests := rfl
  unfold encStep
  rw [henc, hreqs]
  cases s.enc.state with
  | send => exact encPoll_encView f d order s
  | idle =>
    cases s.enc.requests with
    | nil => rfl
    | cons frame later => exact exec_encode_encView f d order (popEncode s) frame

end

/-- Without a change of the errors only DEC and the schedule differ. -/
theorem encView_id (d : Dec) (order : List Turn) (s : State) :
    encView id d order s = { s with dec := d, schedule := order } := by
  have hanswer : SinkAnswer.mapErr id = id := by funext a; cases a <;> rfl
  have hout : EncOutcome.mapErr id = id := by funext o; rcases o with _ | _ | _ <;> rfl
  simp [encView, hanswer, hout]

/-! ### DEC -/

/-- The state with other source errors, another ENC and another schedule. -/
def decView (g : SourceErr → SourceErr) (e : Enc) (order : List Turn) (s : State) : State where
  config := s.config
  enc := e
  dec := (s.mapErr id g).dec
  schedule := order

@[simp] theorem decView_dec (g : SourceErr → SourceErr) (e : Enc) (order : List Turn) (s : State) :
    (decView g e order s).dec = (s.mapErr id g).dec := rfl

section
variable (g : SourceErr → SourceErr) (e : Enc) (order : List Turn) (s : State)

theorem sourceAnswer_decView : sourceAnswer (decView g e order s) = (sourceAnswer s).mapErr g :=
  sourceAnswer_mapErr id g s

theorem sourcePolled_decView :
    sourcePolled (decView g e order s) = decView g e order (sourcePolled s) := by
  refine State.eq_of_fields rfl rfl ?_ rfl
  rw [decView_dec, ← sourcePolled_mapErr]
  rfl

/-- A frame type looks at the parameters alone. -/
theorem exec_inbound_decView {i : Instr} (hi : isInbound i = true) :
    exec i (decView g e order s) = mapNext (decView g e order) (exec i s) := by
  cases i with
  | encode frame => cases hi
  | read => cases hi
  | txrequest form =>
    cases form with
    | outbound frame => cases hi
    | inbound rest => rfl
  | txstatus form =>
    cases form with
    | complete frameId addr txrCount status disco ignored =>
      by_cases hstatus : status ∈ s.config.txStatusKnown
      · by_cases hdisco : disco ∈ s.config.discoKnown
        · rw [exec_txstatus_ok ignored (checkTxStatus_known hstatus hdisco),
            exec_txstatus_ok (s := decView g e order s) ignored
              (checkTxStatus_known hstatus hdisco)]
          rfl
        · rw [exec_txstatus_error ignored (checkTxStatus_unknownDisco hstatus hdisco),
            exec_txstatus_error (s := decView g e order s) ignored
              (checkTxStatus_unknownDisco hstatus hdisco)]
          rfl
      · rw [exec_txstatus_error ignored (checkTxStatus_unknownStatus hstatus),
          exec_txstatus_error (s := decView g e order s) ignored
            (checkTxStatus_unknownStatus hstatus)]
        rfl
    | short rest => rfl
  | rxpacket form => cases form <;> rfl
  | atresp rest => rfl
  | modemstatus rest => rfl
  | remoteatresp rest => rfl

theorem completeFrame_decView :
    completeFrame (decView g e order s) = mapNext (decView g e order) (completeFrame s) := by
  have hfetch : fetchInbound (decView g e order s) = fetchInbound s := rfl
  have hsum : (decView g e order s).dec.sum = s.dec.sum := rfl
  unfold completeFrame
  rw [hfetch, hsum]
  cases checksumValid s.dec.sum with
  | false => rfl
  | true =>
    unfold fetchInbound
    cases loadRange (decBufSize s.config) s.dec.buf 0 s.dec.len.toNat with
    | error r => rfl
    | ok p =>
      cases hd : decodeInbound p with
      | error rejected => cases rejected <;> simp only [hd] <;> rfl
      | ok i =>
        simp only [hd]
        exact exec_inbound_decView g e order s (decodeInbound_isInbound hd)

theorem readyBody_decView (b : Byte) :
    readyBody b (decView g e order s) = mapNext (decView g e order) (readyBody b s) := by
  have hstore : store (decBufSize (decView g e order s).config) (decView g e order s).dec.buf
      (decView g e order s).dec.idx.toNat b =
      store (decBufSize s.config) s.dec.buf s.dec.idx.toNat b := rfl
  unfold readyBody
  rw [hstore]
  cases store (decBufSize s.config) s.dec.buf s.dec.idx.toNat b with
  | error r => rfl
  | ok buf =>
    have hview : bodyStored b buf (decView g e order s) =
      decView g e order (bodyStored b buf s) := rfl
    have hcomplete : bodyComplete (decView g e order (bodyStored b buf s)).dec =
      bodyComplete (bodyStored b buf s).dec := rfl
    simp only [hview, hcomplete]
    cases bodyComplete (bodyStored b buf s).dec with
    | false => rfl
    | true => exact completeFrame_decView g e order (bodyStored b buf s)

theorem readyStart_decView (b : Byte) :
    readyStart b (decView g e order s) = mapNext (decView g e order) (readyStart b s) := by
  by_cases hb : b = startByte
  · rw [hb, readyStart_startByte, readyStart_startByte]
    rfl
  · rw [readyStart_otherByte hb, readyStart_otherByte hb]
    rfl

theorem readyLenLo_decView (b : Byte) :
    readyLenLo b (decView g e order s) = mapNext (decView g e order) (readyLenLo b s) := by
  rcases Nat.lt_or_ge s.config.cap ((s.dec.len + b.setWidth 16).toNat + 1) with hcap | hcap
  · rw [readyLenLo_overflow hcap, readyLenLo_overflow (s := decView g e order s) hcap]
    rfl
  · rw [readyLenLo_fits hcap, readyLenLo_fits (s := decView g e order s) hcap]
    rfl

theorem decPoll_decView {onReady : Byte → State → Host.Outcome State Fault Refusal}
    (h : ∀ b u, onReady b (decView g e order u) = mapNext (decView g e order) (onReady b u)) :
    decPoll onReady (decView g e order s) = mapNext (decView g e order) (decPoll onReady s) := by
  have hans' := sourceAnswer_decView g e order s
  have hpolled := sourcePolled_decView g e order s
  cases hans : sourceAnswer s with
  | notReady =>
    rw [hans] at hans'
    rw [decPoll_notReady hans, decPoll_notReady hans', hpolled]
    rfl
  | error err =>
    rw [hans] at hans'
    rw [decPoll_error hans, decPoll_error hans', hpolled]
    rfl
  | ready b =>
    rw [hans] at hans'
    rw [decPoll_ready hans, decPoll_ready hans', hpolled]
    exact h b (sourceGave (sourcePolled s))

theorem decStep_decView :
    decStep (decView g e order s) = mapNext (decView g e order) (decStep s) := by
  have hstate : (decView g e order s).dec.state = s.dec.state := rfl
  have hreqs : (decView g e order s).dec.requests = s.dec.requests := rfl
  unfold decStep
  rw [hstate, hreqs]
  cases hs : s.dec.state with
  | idle =>
    cases s.dec.requests with
    | zero => rfl
    | succ n =>
      have hread : ∀ u : State, u.dec.state = .idle →
          exec .read (popRead u) = .next (startReading (popRead u)) := fun u hu => exec_read_idle hu
      simp only [hread s hs, hread (decView g e order s) hs]
      rfl
  | start => exact decPoll_decView g e order s fun b u => readyStart_decView g e order u b
  | lenHi => exact decPoll_decView g e order s fun b u => rfl
  | lenLo => exact decPoll_decView g e order s fun b u => readyLenLo_decView g e order u b
  | body => exact decPoll_decView g e order s fun b u => readyBody_decView g e order u b

end

/-- Without a change of the errors only ENC and the schedule differ. -/
theorem decView_id (e : Enc) (order : List Turn) (s : State) :
    decView id e order s = { s with enc := e, schedule := order } := by
  have hanswer : SourceAnswer.mapErr id = id := by funext a; cases a <;> rfl
  have hout : DecOutcome.mapErr id = id := by
    funext o
    rcases o with _ | err
    · rfl
    · cases err <;> rfl
  simp [decView, hanswer, hout]

/-! ### A step beside another one -/

theorem encStep_of_next {s t : State} (h : encStep s = .next t) (d : Dec) (order : List Turn) :
    encStep { s with dec := d, schedule := order } =
      .next { t with dec := d, schedule := order } := by
  rw [← encView_id, encStep_encView, h, mapNext, encView_id]

theorem decStep_of_next {s t : State} (h : decStep s = .next t) (e : Enc) (order : List Turn) :
    decStep { s with enc := e, schedule := order } =
      .next { t with enc := e, schedule := order } := by
  rw [← decView_id, decStep_decView, h, mapNext, decView_id]

theorem run_one (s : State) : Sys2Proof.core.run 1 s = step s := by
  rw [run_succ]
  cases step s <;> rfl

theorem run_two_iff {s t : State} :
    Sys2Proof.core.run 2 s = .next t ↔ ∃ u, step s = .next u ∧ step u = .next t := by
  constructor
  · intro h
    cases hs : step s with
    | next u => exact ⟨u, rfl, (run_one u).symm.trans ((run_of_step hs 1).symm.trans h)⟩
    | fault r => rw [run_succ, hs] at h; cases h
    | refused r => rw [run_succ, hs] at h; cases h
  · rintro ⟨u, hs, hu⟩
    exact (run_of_step hs 1).trans ((run_one u).trans hu)

section
variable {s t : State} {order : List Turn}

theorem run_decFirst_of_encFirst
    (h : Sys2Proof.core.run 2 { s with schedule := .enc :: .dec :: order } = .next t) :
    Sys2Proof.core.run 2 { s with schedule := .dec :: .enc :: order } = .next t := by
  obtain ⟨u, henc, hdec⟩ := run_two_iff.mp h
  rw [step_of_encTurn rfl] at henc
  obtain ⟨hudec, huconfig, husched⟩ := encStep_frame henc
  rw [step_of_decTurn (nextTurn_of_schedule husched)] at hdec
  obtain ⟨htenc, htconfig, htsched⟩ := decStep_frame hdec
  refine run_two_iff.mpr ⟨{ t with enc := s.enc, schedule := .enc :: order }, ?_, ?_⟩
  · rw [step_of_decTurn rfl, ← decStep_of_next hdec]
    exact congrArg decStep (State.eq_of_fields huconfig.symm rfl hudec.symm rfl)
  · have hfirst : popTurn { t with enc := s.enc, schedule := .enc :: order } =
        { s with dec := t.dec, schedule := order } :=
      State.eq_of_fields (htconfig.trans huconfig) rfl rfl rfl
    have hlast : { u with dec := t.dec, schedule := order } = t :=
      State.eq_of_fields htconfig.symm htenc.symm rfl
        (by rw [htsched, popTurn_schedule, husched]; rfl)
    rw [step_of_encTurn rfl, hfirst]
    exact (encStep_of_next henc t.dec order).trans (congrArg Host.Outcome.next hlast)

theorem run_encFirst_of_decFirst
    (h : Sys2Proof.core.run 2 { s with schedule := .dec :: .enc :: order } = .next t) :
    Sys2Proof.core.run 2 { s with schedule := .enc :: .dec :: order } = .next t := by
  obtain ⟨u, hdec, henc⟩ := run_two_iff.mp h
  rw [step_of_decTurn rfl] at hdec
  obtain ⟨huenc, huconfig, husched⟩ := decStep_frame hdec
  rw [step_of_encTurn (nextTurn_of_schedule husched)] at henc
  obtain ⟨htdec, htconfig, htsched⟩ := encStep_frame henc
  refine run_two_iff.mpr ⟨{ t with dec := s.dec, schedule := .dec :: order }, ?_, ?_⟩
  · rw [step_of_encTurn rfl, ← encStep_of_next henc]
    exact congrArg encStep (State.eq_of_fields huconfig.symm huenc.symm rfl rfl)
  · have hfirst : popTurn { t with dec := s.dec, schedule := .dec :: order } =
        { s with enc := t.enc, schedule := order } :=
      State.eq_of_fields (htconfig.trans huconfig) rfl rfl rfl
    have hlast : { u with enc := t.enc, schedule := order } = t :=
      State.eq_of_fields htconfig.symm rfl htdec.symm
        (by rw [htsched, popTurn_schedule, husched]; rfl)
    rw [step_of_decTurn rfl, hfirst]
    exact (decStep_of_next hdec t.enc order).trans (congrArg Host.Outcome.next hlast)

end

/-! ### The statements -/

/-- Settles O49: the second state is the first with the other engine and the schedule exchanged. -/
theorem enginesDoNotInterfere : Obligations.EnginesDoNotInterfere := by
  constructor
  · intro s₁ s₂ t₁ hturn₁ hturn₂ hconfig henc hstep
    rw [step_of_encTurn hturn₁] at hstep
    obtain ⟨hdec, -, -⟩ := encStep_frame hstep
    have hother : popTurn s₂ = { popTurn s₁ with dec := s₂.dec, schedule := s₂.schedule.tail } :=
      State.eq_of_fields hconfig.symm henc.symm rfl rfl
    refine ⟨hdec, { t₁ with dec := s₂.dec, schedule := s₂.schedule.tail }, ?_, rfl, rfl⟩
    rw [step_of_encTurn hturn₂, hother]
    exact encStep_of_next hstep _ _
  · intro s₁ s₂ t₁ hturn₁ hturn₂ hconfig hdec hstep
    rw [step_of_decTurn hturn₁] at hstep
    obtain ⟨henc, -, -⟩ := decStep_frame hstep
    have hother : popTurn s₂ = { popTurn s₁ with enc := s₂.enc, schedule := s₂.schedule.tail } :=
      State.eq_of_fields hconfig.symm rfl hdec.symm rfl
    refine ⟨henc, { t₁ with enc := s₂.enc, schedule := s₂.schedule.tail }, ?_, rfl, rfl⟩
    rw [step_of_decTurn hturn₂, hother]
    exact decStep_of_next hstep _ _

/-- Settles O50: the step that comes second does the same from the state before both. -/
theorem engineStepsCommute : Obligations.EngineStepsCommute :=
  fun _ _ _ => ⟨run_decFirst_of_encFirst, run_encFirst_of_decFirst⟩

/-- Settles O59: each engine's step with the errors of its own transport exchanged. -/
theorem transportErrorsAreOpaque : Obligations.TransportErrorsAreOpaque := by
  intro f g s t hstep
  have hturn' := nextTurn_mapErr f g s
  cases hturn : nextTurn s with
  | enc =>
    rw [step_of_encTurn hturn] at hstep
    obtain ⟨hdec, -, hsched⟩ := encStep_frame hstep
    rw [step_of_encTurn (hturn'.trans hturn)]
    have hview := encStep_encView f (s.mapErr f g).dec s.schedule.tail (popTurn s)
    rw [hstep] at hview
    exact hview.trans (congrArg Host.Outcome.next (State.eq_of_fields rfl rfl
      (by rw [mapErr_dec f g t, hdec]; rfl) hsched.symm))
  | dec =>
    rw [step_of_decTurn hturn] at hstep
    obtain ⟨henc, -, hsched⟩ := decStep_frame hstep
    rw [step_of_decTurn (hturn'.trans hturn)]
    have hview := decStep_decView g (s.mapErr f g).enc s.schedule.tail (popTurn s)
    rw [hstep] at hview
    exact hview.trans (congrArg Host.Outcome.next (State.eq_of_fields rfl
      (by rw [mapErr_enc f g t, henc]; rfl) rfl hsched.symm))
  | reset =>
    rw [step_reset hturn] at hstep
    rw [step_reset (hturn'.trans hturn)]
    cases hstep
    rfl

end Sys2Proof
